-- ==== Sys2Proof/Word.lean ====
section
/-! DEFINITION. The word types of the block (spec/00_scope.md R13). All values are unsigned. -/

namespace Sys2Proof

/-- A byte: 8 bits, bit 0 least significant (R13). -/
abbrev Byte := BitVec 8

/-- A CRC register or a field of the CRC parameter record: 16 bits (spec/10_state.md R20, R31). -/
abbrev CrcWord := BitVec 16

/-- A command word of the command port: 12 bits (spec/30_encoding.md R86). -/
abbrev CmdWord := BitVec 12

/-- A character string of the block's output, as its sequence of 8-bit character codes
(spec/43_hex_publish.md R191, R197). -/
abbrev Chars := List Byte

end Sys2Proof
end

