-- ==== Sys2Proof/Config.lean ====
section
/-! DEFINITION. What is fixed for one instance of the block: the CRC parameter records
(spec/10_state.md R31, R32) and the configuration constants (spec/00_scope.md R10, R11). -/

namespace Sys2Proof

/-- CrcParameters (spec/30_encoding.md R79): every value of every field is legal (spec/10_state.md R31). -/
structure CrcParams where
  poly   : CrcWord
  init   : CrcWord
  xorout : CrcWord
  refin  : Bool
  refout : Bool
  deriving DecidableEq, Repr

/-- The XMODEM profile, the fixed record of the validator engine V (spec/10_state.md R32). -/
def xmodem : CrcParams :=
  { poly := 0x1021, init := 0x0000, xorout := 0x0000, refin := false, refout := false }

/-- FRAME_OVERHEAD, a constant and not a parameter (spec/00_scope.md R10). -/
def frameOverhead : Nat := 4

/-- The configuration constants (spec/00_scope.md R10, spec/10_state.md R33). -/
structure Config where
  /-- MIN_FRAME_LENGTH -/
  minFrame : Nat
  /-- MAX_FRAME_LENGTH -/
  maxFrame : Nat
  /-- READ_TIMEOUT, in clock ticks -/
  readTimeout : Nat
  /-- BUFFER_SIZE, in bytes -/
  bufferSize : Nat
  /-- TIME_W, the width in bits of `now` and of `last` -/
  timeW : Nat
  /-- TOPIC, as character codes -/
  topic : Chars
  /-- EMPTY_STEP_OPENS -/
  emptyStepOpens : Bool
  deriving DecidableEq, Repr

/-- The constraints of spec/00_scope.md R11, and that TIME_W is a positive integer
(spec/92_eei_decisions.md section 3). -/
abbrev Config.Legal (c : Config) : Prop :=
  c.minFrame ≤ c.maxFrame ∧ c.maxFrame ≤ c.bufferSize ∧ 1 ≤ c.bufferSize ∧
    c.readTimeout < 2 ^ c.timeW ∧ 1 ≤ c.timeW

/-- The character codes of `washingmachine/dbus`, the default TOPIC (spec/00_scope.md R10). -/
def defaultTopic : Chars :=
  [0x77, 0x61, 0x73, 0x68, 0x69, 0x6E, 0x67, 0x6D, 0x61, 0x63, 0x68, 0x69, 0x6E, 0x65, 0x2F,
    0x64, 0x62, 0x75, 0x73]

/-- The values of this hardware (spec/00_scope.md R10). -/
def defaultConfig : Config :=
  { minFrame := 6, maxFrame := 32, readTimeout := 50, bufferSize := 128, timeW := 32
    topic := defaultTopic, emptyStepOpens := false }

end Sys2Proof
end

