-- ==== Sys2Proof/Syntax.lean ====
section
/-! DEFINITION. The commands of the command port (spec/30_encoding.md R86, R87), what the host presents
to the block (R85), and the pseudo-instructions (R92). -/

namespace Sys2Proof

/-- The commands, one constructor per row of spec/opcode_table.json. -/
inductive Instr where
  /-- `NOP` (spec/44_step_fsm.md R212) -/
  | nop
  /-- `CRC.RESTART` (spec/40_crc_engine.md R101) -/
  | crcRestart
  /-- `CRC.ADD b` (R102) -/
  | crcAdd (b : Byte)
  /-- `CRC.CALC` (R103) -/
  | crcCalc
  /-- `RX.OPEN` (spec/41_frame_buffer.md R131); the clock reading is not part of the word (R88) -/
  | rxOpen
  /-- `RX.BYTE b` (R133) -/
  | rxByte (b : Byte)
  /-- `SCAN` (spec/42_frame_scanner.md R150) -/
  | scan
  /-- the reserved opcode 0x7 (spec/30_encoding.md R89) -/
  | reserved7
  /-- a reserved opcode 0x8..0xF (R89); `op` is the whole opcode -/
  | reserved8F (op : BitVec 4)
  deriving DecidableEq, Repr

/-- What the host presents to the block, one element per transfer (spec/30_encoding.md R85, R86):
a command word together with the clock reading that stands on the `now` port in that cycle, or a reset
together with the `cfg_*` inputs that are sampled as it ends (spec/70_reset_and_hazards.md R270). -/
inductive HostInput where
  | command (word : CmdWord) (now : Nat)
  | reset (params : CrcParams)
  deriving DecidableEq, Repr

/-- The pseudo-instructions of spec/30_encoding.md R92: calls that the source defines as a whole. -/
inductive Pseudo where
  | crc16 (bytes : List Byte)
  | ingest (bytes : List Byte) (now : Nat)
  | step (bytes : List Byte) (now : Nat)
  deriving DecidableEq, Repr

end Sys2Proof
end

