-- ==== Sys2Proof/WellFormed.lean ====
section
/-! DEFINITION. Which terms of the syntax are commands of the block (spec/30_encoding.md R87). -/

namespace Sys2Proof

/-- A reserved opcode of the row `1xxxxxxxxxxx` has its top bit set (spec/30_encoding.md R87); every other
term is a command with every operand byte (R88). -/
def Instr.wellFormed : Instr → Bool
  | .nop => true
  | .crcRestart => true
  | .crcAdd _ => true
  | .crcCalc => true
  | .rxOpen => true
  | .rxByte _ => true
  | .scan => true
  | .reserved7 => true
  | .reserved8F op => op.msb

/-- The clock reading fits the `TIME_W` wires of the `now` port (spec/30_encoding.md R85, R91). -/
def HostInput.wellFormed (c : Config) : HostInput → Bool
  | .command _ now => decide (now < 2 ^ c.timeW)
  | .reset _ => true

end Sys2Proof
end

