-- ==== Sys2Proof/Decode.lean ====
section
/-! DEFINITION. The command word: decoder and encoder (spec/30_encoding.md R86 to R90). -/

namespace Sys2Proof

/-- `cmd[11:8]`, the opcode (R86). -/
def opcodeOf (w : CmdWord) : BitVec 4 := w.extractLsb' 8 4

/-- `cmd[7:0]`, the operand byte, used as it is (R86, R88). -/
def operandOf (w : CmdWord) : Byte := w.extractLsb' 0 8

/-- The decoder. Every 12-bit word matches exactly one line of R87, so it is total; the operand bits of a
command that takes no operand are ignored (R90). -/
def decodeWord (w : CmdWord) : Instr :=
  match (opcodeOf w).toNat with
  | 0 => .nop
  | 1 => .crcRestart
  | 2 => .crcAdd (operandOf w)
  | 3 => .crcCalc
  | 4 => .rxOpen
  | 5 => .rxByte (operandOf w)
  | 6 => .scan
  | 7 => .reserved7
  | _ => .reserved8F (opcodeOf w)

/-- Why a number is not a command word. -/
inductive DecodeError where
  /-- it has a bit above bit 11, and the command port has twelve wires (R85) -/
  | widerThanThePort (value : Nat)
  deriving DecidableEq, Repr

/-- Reading a number as a command word: total, rejecting by name. -/
def decodeNumber (w : Nat) : Except DecodeError Instr :=
  if w < 2 ^ 12 then .ok (decodeWord (BitVec.ofNat 12 w)) else .error (.widerThanThePort w)

/-- The instruction the decoder reads from an opcode-table word. A command is one 12-bit word, so there
is no byte order and no further word; `nbits` (12 rounded up to whole bytes) selects nothing. -/
def decodeTableWord (_nbits w : Nat) : Option Instr :=
  match decodeNumber w with
  | .ok i => some i
  | .error _ => none

/-- A command word from its two fields (R86). -/
def packWord (op : BitVec 4) (b : Byte) : CmdWord := op ++ b

/-- The encoder: the canonical word, unused operand bits zero (R90). -/
def encode : Instr → CmdWord
  | .nop => packWord 0x0 0
  | .crcRestart => packWord 0x1 0
  | .crcAdd b => packWord 0x2 b
  | .crcCalc => packWord 0x3 0
  | .rxOpen => packWord 0x4 0
  | .rxByte b => packWord 0x5 b
  | .scan => packWord 0x6 0
  | .reserved7 => packWord 0x7 0
  | .reserved8F op => packWord op 0

/-- One line of the opcode map (R87): the word matches it when its masked bits are `pattern`. -/
structure OpcodeRow where
  mnemonic : String
  pattern  : CmdWord
  mask     : CmdWord
  deriving DecidableEq, Repr

/-- Does the word match the line? -/
def OpcodeRow.covers (r : OpcodeRow) (w : CmdWord) : Bool := w &&& r.mask == r.pattern

/-- The opcode map of R87, with the masks of spec/opcode_table.json. -/
def opcodeMap : List OpcodeRow :=
  [ ⟨"NOP", 0x000, 0xF00⟩, ⟨"CRC.RESTART", 0x100, 0xF00⟩, ⟨"CRC.ADD", 0x200, 0xF00⟩,
    ⟨"CRC.CALC", 0x300, 0xF00⟩, ⟨"RX.OPEN", 0x400, 0xF00⟩, ⟨"RX.BYTE", 0x500, 0xF00⟩,
    ⟨"SCAN", 0x600, 0xF00⟩, ⟨"RESERVED.7", 0x700, 0xF00⟩, ⟨"RESERVED.8_F", 0x800, 0x800⟩ ]

/-- The mnemonic of a command (R86), as spec/opcode_table.json spells it. -/
def Instr.mnemonic : Instr → String
  | .nop => "NOP"
  | .crcRestart => "CRC.RESTART"
  | .crcAdd _ => "CRC.ADD"
  | .crcCalc => "CRC.CALC"
  | .rxOpen => "RX.OPEN"
  | .rxByte _ => "RX.BYTE"
  | .scan => "SCAN"
  | .reserved7 => "RESERVED.7"
  | .reserved8F _ => "RESERVED.8_F"

end Sys2Proof
end

