-- ==== Sys2Proof/Machine/State.lean ====
section
/-! DEFINITION. The state of the block (spec/10_state.md R20 to R39), its reset value (R38), and the
reasons a step can stop. -/

namespace Sys2Proof.Machine

/-- The six states of the protocol state machine (spec/44_step_fsm.md R220). -/
inductive FsmState where
  | idle | hunt | check | emit | ack | prune
  deriving DecidableEq, Repr

/-- A publish event `(topic, hexString)` (spec/43_hex_publish.md R194), as character codes (R191). -/
structure PubEvent where
  topic   : Chars
  payload : Chars
  deriving DecidableEq, Repr

/-- The cells of the frame buffer that hold a value, as (index, byte) pairs. A cell that is not listed
holds no value (spec/10_state.md R36; spec/93_implementation_defined.md U1). -/
abbrev Memory := List Host.Cell

/-- The canonical form: indices strictly rising. (An unlisted cell reads as no value, so no listed byte
equals what an unlisted cell reads as.) -/
abbrev Memory.wf (m : Memory) : Prop := m.Pairwise (fun a b => a.1 < b.1)

/-- Why a step faults. -/
inductive Fault where
  /-- A read of the buffer whose first index is `index` met a cell that holds no value. Raised by
  `SCAN` and its micro-operations, in a state whose buffer does not hold a value in every cell below
  `blen`; spec/20_memory.md R51 asks for this fault. Safe: the hardware performs no such read. -/
  | readOutsideValid (index : Nat)
  deriving DecidableEq, Repr

/-- Why the model refuses. -/
inductive Refusal where
  /-- An instruction without a meaning; raised by no arm of `exec`. Safe. -/
  | notModelled (mnemonic : String)
  /-- A configuration outside spec/00_scope.md R11. Raised by `construct` only. Safe. -/
  | illegalConfiguration
  /-- A command sequence that holds a reserved opcode (spec/30_encoding.md R89). Raised by `submit`
  only; a step runs a reserved opcode as the hardware does. Safe. -/
  | reservedOpcodeInSequence
  /-- A command sequence that is not built from `CRC.*`, `NOP`, `INGEST`, `SCAN` and `STEP`
  (spec/30_encoding.md R94). Raised by `submit` only; a step runs each command in any order. Safe. -/
  | burstShapeBroken
  deriving DecidableEq, Repr

/-- The state of the machine. Indices, lengths and clock readings are naturals (spec/44_step_fsm.md R231);
`Safety.Inv` gives their ranges. -/
structure State where
  /-- the configuration constants of this instance (R33); written by nothing -/
  cfg : Config
  /-- the parameter record of engine E, sampled at reset and held (R31) -/
  e : CrcParams
  /-- the register of engine E (R21) -/
  crc : CrcWord
  /-- the register of engine V (R22) -/
  vcrc : CrcWord
  /-- the frame buffer (R23) -/
  buf : Memory
  /-- the number of valid bytes in the buffer (R24) -/
  blen : Nat
  /-- the `now` of the most recent `RX.OPEN` (R25) -/
  last : Nat
  /-- the scan cursor (R27) -/
  pos : Nat
  /-- the candidate length (R26) -/
  len : Nat
  /-- the last accepted end offset (R26) -/
  lastEnd : Nat
  /-- byte 1 of the frame just accepted (R26) -/
  f1 : Byte
  /-- at least one frame was accepted in this pass (R28) -/
  acc : Bool
  /-- the state register of the state machine (R27) -/
  st : FsmState
  /-- the held output `crc_out` (spec/30_encoding.md R85) -/
  crcOut : CrcWord
  /-- the output `crc_out_valid` (R85): did the last step update `crc_out`? -/
  crcOutValid : Bool
  /-- the input port `now` while a command is executed (R85, R39) -/
  nowIn : Nat
  /-- what the host will present, oldest first (R85, R86, R270) -/
  pending : List HostInput
  /-- the publish events of this instance so far, oldest first (R29) -/
  out : List PubEvent
  /-- the publish events that had left the block before the last reset (spec/70_reset_and_hazards.md
  R272); an observation like `out`, and no part of the block -/
  delivered : List PubEvent
  deriving DecidableEq, Repr

/-- The state right after reset with constants `c` and sampled parameters `p` (R38,
spec/70_reset_and_hazards.md R271). The zeros of `vcrc`, `pos`, `len`, `lastEnd`, `f1`, `acc` and
`crcOut` are a DESIGN CHOICE (log 1), those of `crcOutValid` and `nowIn` too (logs 3 and 5). -/
def State.resetWith (c : Config) (p : CrcParams) : State :=
  { cfg := c, e := p, crc := p.init, vcrc := 0, buf := [], blen := 0, last := 0, pos := 0, len := 0
    lastEnd := 0, f1 := 0, acc := false, st := .idle, crcOut := 0, crcOutValid := false, nowIn := 0
    pending := [], out := [], delivered := [] }

/-- The machine right after reset: the constants of this hardware (spec/00_scope.md R10) and, for engine
E, the XMODEM profile (DESIGN CHOICE, log 4: the spec leaves `E.*` to the host). -/
def State.reset : State := State.resetWith defaultConfig xmodem

end Sys2Proof.Machine
end

