-- ==== Sys2Proof/Machine/Ops.lean ====
section
/-! DEFINITION. The named operations over the buffer, the ports and the registers
(spec/20_memory.md R50 to R68). The block takes no exception and has no return from one
(spec/60_exceptions.md R240, R246, R247): the nearest thing, the timeout clear, is `clearBuffer`. -/

namespace Sys2Proof.Machine

/-- What a command or a micro-operation answers. -/
abbrev Result := Host.Outcome State Fault Refusal

/-- Run `f` on the next state; a fault or a refusal stops. -/
def andThen (o : Result) (f : State → Result) : Result :=
  match o with
  | .next s => f s
  | .fault r => .fault r
  | .refused r => .refused r

/-- The value of a cell, if it holds one. -/
def Memory.read : Memory → Nat → Option Byte
  | [], _ => none
  | (k, b) :: m, i => if k = i then some b else Memory.read m i

/-- Write one cell, keeping the indices rising. -/
def Memory.write : Memory → Nat → Byte → Memory
  | [], i, v => [(i, v)]
  | (k, b) :: m, i, v =>
    if i < k then (i, v) :: (k, b) :: m
    else if i = k then (i, v) :: m
    else (k, b) :: Memory.write m i v

/-- The cells `k` to `n-1`, moved to start at index 0 (spec/20_memory.md R68). -/
def Memory.cut (m : Memory) (k n : Nat) : Memory :=
  (m.filter (fun c => k ≤ c.1 && c.1 < n)).map (fun c => (c.1 - k, c.2))

/-- `buf[i]`: defined only below `blen` (spec/20_memory.md R51). -/
def bufRead (s : State) (i : Nat) : Option Byte :=
  if i < s.blen then s.buf.read i else none

/-- The `n` bytes from index `i` on, one at a time in ascending order (spec/20_memory.md R58). -/
def memReadFrom (s : State) (i : Nat) : Nat → Option (List Byte)
  | 0 => some []
  | n + 1 =>
    match bufRead s i, memReadFrom s (i + 1) n with
    | some b, some bs => some (b :: bs)
    | _, _ => none

/-- `MemRead(i, n)`, defined only for `i + n <= blen` (spec/00_scope.md R14, spec/20_memory.md R51). -/
def memRead (s : State) (i n : Nat) : Option (List Byte) :=
  if i + n ≤ s.blen then memReadFrom s i n else none

/-- The valid part of the buffer, oldest byte first (spec/20_memory.md R50). -/
def State.validPart (s : State) : List Byte :=
  (List.range s.blen).filterMap s.buf.read

/-- Every cell below `blen` holds a value and no other does (spec/10_state.md R23, R36). -/
abbrev State.BufOk (s : State) : Prop := s.buf.map Prod.fst = List.range s.blen

/-- `MemWrite(blen, 1, b); blen <- blen + 1` (spec/20_memory.md R52 a). -/
def appendByte (b : Byte) (s : State) : State :=
  { s with buf := s.buf.write s.blen b, blen := s.blen + 1 }

/-- `blen <- 0` (spec/20_memory.md R52 b, R67): no cell holds a value afterwards. -/
def clearBuffer (s : State) : State := { s with buf := [], blen := 0 }

/-- `prune(k)`: the valid part becomes its suffix from index `k` on (spec/20_memory.md R52 c, R68). -/
def pruneTo (k : Nat) (s : State) : State :=
  { s with buf := s.buf.cut k s.blen, blen := s.blen - k }

/-- The reading on the `now` port, which has `TIME_W` wires (spec/30_encoding.md R85). -/
def nowPort (s : State) : Nat := s.nowIn % 2 ^ s.cfg.timeW

/-- `emit PUBLISH(t, s)` (spec/43_hex_publish.md R194). -/
def publish (ev : PubEvent) (s : State) : State := { s with out := s.out ++ [ev] }

/-- The output `cmd_ready` (spec/30_encoding.md R85, spec/44_step_fsm.md R220): IDLE, and only IDLE. -/
def State.cmdReady (s : State) : Bool := s.st == .idle

/-- The 3-bit code of a state of the state machine (spec/44_step_fsm.md R220). -/
def FsmState.code : FsmState → BitVec 3
  | .idle => 0
  | .hunt => 1
  | .check => 2
  | .emit => 3
  | .ack => 4
  | .prune => 5

/-- The state a 3-bit code stands for; the unused codes 6 and 7 go to IDLE (spec/44_step_fsm.md R224). -/
def FsmState.ofCode (c : BitVec 3) : FsmState :=
  match c.toNat with
  | 1 => .hunt
  | 2 => .check
  | 3 => .emit
  | 4 => .ack
  | 5 => .prune
  | _ => .idle

end Sys2Proof.Machine
end

