-- ==== Sys2Proof/Machine/Operands.lean ====
section
/-! DEFINITION. How operands are formed: bit reversals, the byte placed into the CRC register, the
candidate length, the ACK values, the time gap (spec/44_step_fsm.md R231). -/

namespace Sys2Proof.Machine

/-- `rev8`: bit `i` of the result is bit `7-i` of `b` (spec/40_crc_engine.md R104). -/
def rev8 (b : Byte) : Byte := b.reverse

/-- `rev16`: bit `i` of the result is bit `15-i` of `v` (spec/40_crc_engine.md R105). -/
def rev16 (v : CrcWord) : CrcWord := v.reverse

/-- The byte as `CRC.ADD` processes it: reversed first when `refin` (spec/40_crc_engine.md R102). -/
def inputByte (p : CrcParams) (b : Byte) : Byte := if p.refin then rev8 b else b

/-- `zext_16(d) << 8` (spec/40_crc_engine.md R102). -/
def highByte (d : Byte) : CrcWord := d.setWidth 16 <<< 8

/-- `len = zext_9(buf[pos]) + 4`, a sum that does not wrap (spec/30_encoding.md R72). -/
def candidateLength (b : Byte) : Nat := b.toNat + frameOverhead

/-- `(f1 & 0xF0) | 0x0A`, the ACK value built from the frame's second byte (spec/30_encoding.md R76). -/
def ackValue (f1 : Byte) : Byte := (f1 &&& 0xF0) ||| 0x0A

/-- `(now - last) mod 2^w` (spec/41_frame_buffer.md R131, R132). -/
def timeGap (w now last : Nat) : Nat := (((now : Int) - (last : Int)) % ((2 ^ w : Nat) : Int)).toNat

end Sys2Proof.Machine
end

