-- ==== Sys2Proof/Machine/Flags.lean ====
section
/-! DEFINITION. The predicates that are computed where they are used (spec/10_state.md R28). The one
stored flag is `acc`. -/

namespace Sys2Proof.Machine

/-- The top-bit test of a shift step, on the value before the shift (spec/40_crc_engine.md R106). -/
def topBit (r : CrcWord) : Bool := r.msb

/-- The timeout test of `RX.OPEN`: strict and unsigned (spec/41_frame_buffer.md R131). -/
def timedOut (s : State) : Bool :=
  decide (s.cfg.readTimeout < timeGap s.cfg.timeW (nowPort s) s.last)

/-- The capacity test of `RX.BYTE` (spec/41_frame_buffer.md R133). -/
def hasRoom (s : State) : Bool := decide (s.blen < s.cfg.bufferSize)

/-- X1a: the candidate is too short (spec/60_exceptions.md R241). -/
def tooShort (c : Config) (len : Nat) : Bool := decide (len < c.minFrame)

/-- X1b: the candidate is too long. -/
def tooLong (c : Config) (len : Nat) : Bool := decide (c.maxFrame < len)

/-- X1c: the candidate runs past the buffered bytes. -/
def runsPast (len blen pos : Nat) : Bool := decide (blen - pos < len)

/-- `lengthOK` of `SCAN.HDR` (spec/42_frame_scanner.md R152). -/
def lengthOK (s : State) : Bool :=
  !(tooShort s.cfg s.len || tooLong s.cfg s.len || runsPast s.len s.blen s.pos)

/-- Does the byte match as the ACK of a frame whose second byte is `f1` (spec/30_encoding.md R76)? -/
def ackMatches (f1 a : Byte) : Bool := a == ackValue f1 || (f1 == 0x0F && a == 0x1A)

end Sys2Proof.Machine
end

