-- ==== Sys2Proof/Machine/CrcEngine.lean ====
section
/-! DEFINITION. The CRC engine (spec/40_crc_engine.md): its functions, used by engine E and by engine V
alike (R100), and the commands `CRC.RESTART`, `CRC.ADD`, `CRC.CALC`. -/

namespace Sys2Proof.Machine

/-- `lfsr1(P, r)`: one shift step (R106). -/
def lfsr1 (p : CrcParams) (r : CrcWord) : CrcWord :=
  if topBit r then (r <<< 1) ^^^ p.poly else r <<< 1

/-- `n` shift steps. -/
def lfsrSteps (p : CrcParams) : Nat → CrcWord → CrcWord
  | 0, r => r
  | n + 1, r => lfsrSteps p n (lfsr1 p r)

/-- `restart(P)` (R100, R101). -/
def crcStart (p : CrcParams) : CrcWord := p.init

/-- `add(P, reg, b)` (R102). -/
def crcAddByte (p : CrcParams) (reg : CrcWord) (b : Byte) : CrcWord :=
  lfsrSteps p 8 (reg ^^^ highByte (inputByte p b))

/-- `calc(P, reg)`: the reversal first, the exclusive-or second (R103). -/
def crcResult (p : CrcParams) (reg : CrcWord) : CrcWord :=
  (if p.refout then rev16 reg else reg) ^^^ p.xorout

/-- The register after the bytes, in order. -/
def crcFeed (p : CrcParams) (reg : CrcWord) (bs : List Byte) : CrcWord :=
  bs.foldl (crcAddByte p) reg

/-- `crc16(P, bs)`: the CRC of a whole message (R110). -/
def crc16 (p : CrcParams) (bs : List Byte) : CrcWord := crcResult p (crcFeed p (crcStart p) bs)

/-- `CRC.RESTART` (R101). -/
def execCrcRestart (s : State) : Result := .next { s with crc := crcStart s.e }

/-- `CRC.ADD b` (R102). -/
def execCrcAdd (b : Byte) (s : State) : Result := .next { s with crc := crcAddByte s.e s.crc b }

/-- `CRC.CALC` (R103): the result on `crc_out`, with the pulse of `crc_out_valid`
(spec/30_encoding.md R85); `crc` is unchanged. -/
def execCrcCalc (s : State) : Result :=
  .next { s with crcOut := crcResult s.e s.crc, crcOutValid := true }

end Sys2Proof.Machine
end

