-- ==== Sys2Proof/Machine/FrameBuffer.lean ====
section
/-! DEFINITION. The frame buffer's commands `RX.OPEN` and `RX.BYTE` (spec/41_frame_buffer.md). -/

namespace Sys2Proof.Machine

/-- `RX.OPEN` (R131): test and clear, then the timestamp. -/
def execRxOpen (s : State) : Result :=
  .next { (if timedOut s then clearBuffer s else s) with last := nowPort s }

/-- `RX.BYTE b` (R133): append, or drop the byte silently at capacity (R134). -/
def execRxByte (b : Byte) (s : State) : Result :=
  .next (if hasRoom s then appendByte b s else s)

end Sys2Proof.Machine
end

