-- ==== Sys2Proof/Machine/HexPublish.lean ====
section
/-! DEFINITION. The hex encoder and the publish port (spec/43_hex_publish.md). -/

namespace Sys2Proof.Machine

/-- The character code of a hex digit (R191). -/
def hexDigit (v : BitVec 4) : Byte :=
  if v < 10 then 0x30 + v.setWidth 8 else 0x37 + v.setWidth 8

/-- `b[7:4]`, whose digit comes first (R190, R191). -/
def hiNibble (b : Byte) : BitVec 4 := b.extractLsb' 4 4

/-- `b[3:0]` (R190). -/
def loNibble (b : Byte) : BitVec 4 := b.extractLsb' 0 4

/-- `HEX(bs)` (R190). -/
def hex : List Byte → Chars
  | [] => []
  | b :: bs => hexDigit (hiNibble b) :: hexDigit (loNibble b) :: hex bs

/-- One cycle of the publish port in which `pub_valid` is 1 (R197). -/
structure PubCycle where
  char : Byte
  sof  : Bool
  eof  : Bool
  deriving DecidableEq, Repr

/-- The characters after the first, the last one marked (R197). -/
def cyclesAfterFirst : Chars → List PubCycle
  | [] => []
  | [c] => [⟨c, false, true⟩]
  | c :: d :: cs => ⟨c, false, false⟩ :: cyclesAfterFirst (d :: cs)

/-- The character stream of one hex string on the publish port (R197). -/
def pubCycles : Chars → List PubCycle
  | [] => []
  | [c] => [⟨c, true, true⟩]
  | c :: d :: cs => ⟨c, true, false⟩ :: cyclesAfterFirst (d :: cs)

/-- What the publish port has presented so far: the events' streams one after the other, never
interleaved; the topic is not carried (R196, R197). -/
def State.pubStream (s : State) : List PubCycle := s.out.flatMap (fun ev => pubCycles ev.payload)

end Sys2Proof.Machine
end

