-- ==== Sys2Proof/Machine/Scanner.lean ====
section
/-! DEFINITION. The frame scanner (spec/42_frame_scanner.md): the micro-operations, and `SCAN` as the
whole pass of R150. -/

namespace Sys2Proof.Machine

/-- Start of a pass (R151). -/
def startPass (s : State) : State := { s with pos := 0, lastEnd := 0, acc := false }

/-- `SCAN.HDR`: the candidate length (R152). -/
def scanHdr (s : State) : Result :=
  match bufRead s s.pos with
  | some b => .next { s with len := candidateLength b }
  | none => .fault (.readOutsideValid s.pos)

/-- A reject, from step 2 or from step 3 (R153, R156). -/
def reject (s : State) : State := { s with pos := s.pos + 1 }

/-- `SCAN.CHECK`: a fresh engine V, fed with all bytes of the candidate (R155). -/
def scanCheck (s : State) : Result :=
  match memRead s s.pos s.len with
  | some bs => .next { s with vcrc := crcFeed xmodem (crcStart xmodem) bs }
  | none => .fault (.readOutsideValid s.pos)

/-- `crcOK`, the residue test of `SCAN.CHECK` (R155). -/
def crcOK (s : State) : Bool := crcResult xmodem s.vcrc == 0

/-- `SCAN.EMIT`: publish, advance, record (R158). -/
def scanEmit (s : State) : Result :=
  match memRead s s.pos s.len, bufRead s (s.pos + 1) with
  | some bs, some b =>
    .next { publish ⟨s.cfg.topic, hex bs⟩ s with
              f1 := b, pos := s.pos + s.len, lastEnd := s.pos + s.len, acc := true }
  | _, _ => .fault (.readOutsideValid s.pos)

/-- `SCAN.ACK`: skip the byte after the frame if it is the frame's ACK (R160, R161). -/
def scanAck (s : State) : Result :=
  if s.pos < s.blen then
    match bufRead s s.pos with
    | some a => .next (if ackMatches s.f1 a then { s with pos := s.pos + 1 } else s)
    | none => .fault (.readOutsideValid s.pos)
  else .next s

/-- `SCAN.PRUNE` (R165). -/
def scanPrune (s : State) : State :=
  if s.acc then pruneTo s.lastEnd s
  else if s.cfg.maxFrame < s.blen then pruneTo (s.blen - s.cfg.maxFrame) s
  else s

/-- Steps 2 to 5 at one position: one iteration of the loop of R150. -/
def scanIteration (s : State) : Result :=
  andThen (scanHdr s) fun h =>
    if lengthOK h then
      andThen (scanCheck h) fun c =>
        if crcOK c then andThen (scanEmit c) scanAck else .next (reject c)
    else .next (reject h)

/-- The loop of R150. Every iteration moves `pos` up by at least 1, so `blen - pos` iterations end it
(R166); the first argument counts them. -/
def scanLoop : Nat → State → Result
  | 0, s => .next s
  | n + 1, s => if s.pos < s.blen then andThen (scanIteration s) (scanLoop n) else .next s

/-- `SCAN` (R150): one atomic transition (spec/00_scope.md R19). -/
def execScan (s : State) : Result :=
  andThen (scanLoop s.blen (startPass s)) fun t => .next (scanPrune t)

end Sys2Proof.Machine
end

