-- ==== Sys2Proof/Machine/System.lean ====
section
/-! DEFINITION. `NOP` (spec/44_step_fsm.md R212) and the reserved opcodes (spec/30_encoding.md R89). -/

namespace Sys2Proof.Machine

/-- `NOP`: nothing (R212). -/
def execNop (s : State) : Result := .next s

/-- The reserved opcode 0x7: the hardware accepts the word and changes no state (R89). -/
def execReserved7 (s : State) : Result := .next s

/-- A reserved opcode 0x8..0xF: the same (R89). -/
def execReserved8F (_op : BitVec 4) (s : State) : Result := .next s

end Sys2Proof.Machine
end

