-- ==== Sys2Proof/Machine/Dispatch.lean ====
section
/-! DEFINITION. One arm per command. -/

namespace Sys2Proof.Machine

def exec (i : Instr) (s : State) : Host.Outcome State Fault Refusal :=
  match i with
  | .nop => Sys2Proof.Machine.execNop s
  | .crcRestart => Sys2Proof.Machine.execCrcRestart s
  | .crcAdd b => Sys2Proof.Machine.execCrcAdd b s
  | .crcCalc => Sys2Proof.Machine.execCrcCalc s
  | .rxOpen => Sys2Proof.Machine.execRxOpen s
  | .rxByte b => Sys2Proof.Machine.execRxByte b s
  | .scan => Sys2Proof.Machine.execScan s
  | .reserved7 => Sys2Proof.Machine.execReserved7 s
  | .reserved8F op => Sys2Proof.Machine.execReserved8F op s

end Sys2Proof.Machine
end

