-- ==== Sys2Proof/Machine/Fsm.lean ====
section
/-! DEFINITION. The protocol state machine, which refines `SCAN` into transitions
(spec/44_step_fsm.md R220 to R224). -/

namespace Sys2Proof.Machine

/-- IDLE, command `SCAN` accepted (R221, first row). -/
def beginScan (s : State) : State := { startPass s with st := .hunt }

/-- One transition of the state machine (R221). In IDLE it has none of its own: a command is taken by
the command port (`Machine/Port.lean`). -/
def fsmStep (s : State) : Result :=
  match s.st with
  | .idle => .next s
  | .hunt =>
    if s.pos < s.blen then
      andThen (scanHdr s) fun h =>
        .next (if lengthOK h then { h with st := .check } else reject h)
    else .next { s with st := .prune }
  | .check =>
    andThen (scanCheck s) fun c =>
      .next (if crcOK c then { c with st := .emit } else { reject c with st := .hunt })
  | .emit => andThen (scanEmit s) fun t => .next { t with st := .ack }
  | .ack => andThen (scanAck s) fun t => .next { t with st := .hunt }
  | .prune => .next { scanPrune s with st := .idle }

/-- At most `n` transitions, stopping in IDLE. -/
def fsmRun : Nat → State → Result
  | 0, s => .next s
  | n + 1, s => if s.st = .idle then .next s else andThen (fsmStep s) (fsmRun n)

end Sys2Proof.Machine
end

