-- ==== Sys2Proof/Machine/Port.lean ====
section
/-! DEFINITION. The command port and the reset pin (spec/30_encoding.md R85, R86;
spec/70_reset_and_hazards.md R270 to R272): what the block does with what the host presents. -/

namespace Sys2Proof.Machine

/-- The pulse of `crc_out_valid` is over (spec/30_encoding.md R85). -/
def endPulse (s : State) : State := { s with crcOutValid := false }

/-- The port as a command is accepted: the word is taken, `now` stands on the port. -/
def acceptCommand (now : Nat) (rest : List HostInput) (s : State) : State :=
  { endPulse s with nowIn := now, pending := rest }

/-- A reset with the `cfg_*` inputs `p`: every piece of state takes its reset value, a pass in progress
is abandoned (R270). Events already emitted remain emitted (R272), and what the host will present next
is the host's own and stays. -/
def acceptReset (p : CrcParams) (rest : List HostInput) (s : State) : State :=
  { State.resetWith s.cfg p with nowIn := s.nowIn, pending := rest, delivered := s.delivered ++ s.out }

/-- A command word stored where the next step takes its command: at the head of what the host presents,
with the reading that stands on the `now` port, in IDLE, where a command is accepted. -/
def presentWord (w : CmdWord) (s : State) : State :=
  { s with st := .idle, pending := .command w s.nowIn :: s.pending }

/-- Construction of an instance (R270); a configuration outside spec/00_scope.md R11 is refused. -/
def construct (c : Config) (p : CrcParams) : Result :=
  if c.Legal then .next (State.resetWith c p) else .refused .illegalConfiguration

end Sys2Proof.Machine
end

