-- ==== Sys2Proof/Machine/Step.lean ====
section
/-! DEFINITION. One step of the machine: a reset, a command taken in IDLE and run whole, a transition of
the state machine where a pass is in progress, or nothing to do (spec/44_step_fsm.md R221, R226). -/

namespace Sys2Proof.Machine

def step (s : State) : Host.Outcome State Fault Refusal :=
  match s.pending with
  | .reset p :: rest => .next (acceptReset p rest s)
  | .command w now :: rest =>
    if s.cmdReady then exec (decodeWord w) (acceptCommand now rest s) else fsmStep (endPulse s)
  | [] => if s.cmdReady then .next (endPulse s) else fsmStep (endPulse s)

/-- The state with an opcode-table word presented at the command port (log 5). A word is twelve bits;
`nbits` (12 in whole bytes) selects nothing. -/
def State.withFetchWord (s : State) (_nbits w : Nat) : State := presentWord (BitVec.ofNat 12 w) s

end Sys2Proof.Machine
end

