-- ==== Sys2Proof/Machine/Conditions.lean ====
section
/-! DEFINITION. The silent conditions and their labels (spec/60_exceptions.md R241). They are for
statements only: no rule reads one (R242). X6 is the sink's and outside the block. -/

namespace Sys2Proof.Machine

inductive Condition where
  | x1a | x1b | x1c | x2 | x3 | x4 | x5
  deriving DecidableEq, Repr

/-- The conditions `SCAN.HDR` meets, with `len` computed. -/
def hdrConditions (s : State) : List Condition :=
  (if tooShort s.cfg s.len then [.x1a] else []) ++ (if tooLong s.cfg s.len then [.x1b] else []) ++
    (if runsPast s.len s.blen s.pos then [.x1c] else [])

/-- The condition `SCAN.CHECK` meets, with the residue computed. -/
def checkConditions (s : State) : List Condition := if crcOK s then [] else [.x2]

/-- The condition `RX.BYTE` meets. -/
def rxByteConditions (s : State) : List Condition := if hasRoom s then [] else [.x3]

/-- The condition `RX.OPEN` meets. -/
def rxOpenConditions (s : State) : List Condition := if timedOut s then [.x4] else []

/-- The condition `SCAN.PRUNE` meets; an accept takes priority over it (R245 d). -/
def pruneConditions (s : State) : List Condition :=
  if !s.acc && decide (s.cfg.maxFrame < s.blen) then [.x5] else []

end Sys2Proof.Machine
end

