-- ==== Sys2Proof/Machine/Pseudo.lean ====
section
/-! DEFINITION. The pseudo-instructions (spec/30_encoding.md R92), the assembler text of a command (R91)
and the checked front door for command sequences (R89, R94). -/

namespace Sys2Proof.Machine

/-- A command with the reading that stands on the `now` port beside it. -/
def cmdAt (now : Nat) (i : Instr) : HostInput := .command (encode i) now

/-- The expansion of a pseudo-instruction (R92); the empty `STEP` depends on EMPTY_STEP_OPENS
(spec/44_step_fsm.md R211). -/
def expand (c : Config) : Pseudo → List HostInput
  | .crc16 bs =>
    cmdAt 0 .crcRestart :: (bs.map (fun b => cmdAt 0 (.crcAdd b)) ++ [cmdAt 0 .crcCalc])
  | .ingest bs now => cmdAt now .rxOpen :: bs.map (fun b => cmdAt now (.rxByte b))
  | .step [] now =>
    if c.emptyStepOpens then [cmdAt now .rxOpen, cmdAt now .scan] else [cmdAt now .scan]
  | .step (b :: bs) now =>
    cmdAt now .rxOpen :: ((b :: bs).map (fun x => cmdAt now (.rxByte x)) ++ [cmdAt now .scan])

/-- Two upper-case hex digits of an operand byte, as R91 writes them. -/
def operandText (b : Byte) : String :=
  " 0x" ++ String.ofList ((hex [b]).map (fun c => Char.ofNat c.toNat))

/-- The assembler text of a command offered with a clock reading (R91); the reserved opcodes have no
mnemonic there and print as the opcode table names them. -/
def asmText (i : Instr) (now : Nat) : String :=
  match i with
  | .crcAdd b => i.mnemonic ++ operandText b
  | .rxByte b => i.mnemonic ++ operandText b
  | .rxOpen => i.mnemonic ++ " now=" ++ toString now
  | _ => i.mnemonic

/-- Is it a reserved opcode (R89)? -/
def isReserved : Instr → Bool
  | .reserved7 => true
  | .reserved8F _ => true
  | _ => false

/-- Is the sequence built from `CRC.*`, `NOP`, `INGEST`, `SCAN` and `STEP` (R94)? The first argument
says whether a burst is open, so that a byte may follow; a reset ends a burst. -/
def sourceShaped : Bool → List HostInput → Bool
  | _, [] => true
  | _, .reset _ :: rest => sourceShaped false rest
  | opened, .command w _ :: rest =>
    match decodeWord w with
    | .rxOpen => sourceShaped true rest
    | .rxByte _ => opened && sourceShaped true rest
    | _ => sourceShaped false rest

/-- Does the sequence hold a reserved opcode? -/
def holdsReserved (ins : List HostInput) : Bool :=
  ins.any fun
    | .command w _ => isReserved (decodeWord w)
    | .reset _ => false

/-- The checked front door: a sequence handed to the host's queue, refused when it holds a reserved
opcode (R89) or breaks the burst shape (R94, spec/93_implementation_defined.md U5, U10). The machine
behind it runs every command in any order, as the hardware does. -/
def submit (ins : List HostInput) (s : State) : Result :=
  if holdsReserved ins then .refused .reservedOpcodeInSequence
  else if sourceShaped false ins then .next { s with pending := s.pending ++ ins }
  else .refused .burstShapeBroken

end Sys2Proof.Machine
end

