-- ==== Sys2Proof/Safety.lean ====
section
/-! DEFINITION. What statements about the machine are made with: the invariant, what is observable
between commands, and the decoder over plain byte sequences that `SCAN` is held against. -/

namespace Sys2Proof.Safety

open Sys2Proof.Machine

/-- `n` steps of the machine. -/
def runSteps : Nat → State → Result
  | 0, s => .next s
  | n + 1, s => andThen (step s) (runSteps n)

/-- One shift step in exact arithmetic: doubling modulo 2^16, with the polynomial exclusive-ored in when the
top bit was set (spec/40_crc_engine.md R106). -/
def shiftNumber (poly r : Nat) : Nat :=
  if 32768 ≤ r then (2 * r) % 65536 ^^^ poly else (2 * r) % 65536

/-- The scan registers' range during a pass (spec/10_state.md R37). -/
def ScanRange (s : State) : Prop :=
  s.lastEnd ≤ s.pos ∧ s.pos ≤ s.blen ∧ (s.acc = true ↔ 0 < s.lastEnd)

/-- `len` is the length of the candidate at `pos`, and legal (spec/10_state.md R37). -/
def CandidateHeld (s : State) : Prop :=
  s.pos < s.blen ∧ (bufRead s s.pos).map candidateLength = some s.len ∧ lengthOK s = true

/-- What holds in each state of the state machine (spec/10_state.md R37, spec/42_frame_scanner.md R155,
R158, R164). -/
def PassInv (s : State) : Prop :=
  match s.st with
  | .idle => True
  | .hunt => ScanRange s
  | .check => ScanRange s ∧ CandidateHeld s
  | .emit => ScanRange s ∧ CandidateHeld s ∧ (memRead s s.pos s.len).map (crc16 xmodem) = some 0
  | .ack => ScanRange s ∧ s.lastEnd = s.pos ∧ s.acc = true ∧ s.len ≤ s.lastEnd ∧
      bufRead s (s.lastEnd - s.len + 1) = some s.f1
  | .prune => ScanRange s ∧ s.pos = s.blen

/-- The invariant of the machine: a legal configuration, a buffer that holds a value in exactly the
cells below `blen`, within its capacity, a timestamp of `TIME_W` bits, and the state machine's own
(spec/00_scope.md R11, spec/10_state.md R37). -/
def Inv (s : State) : Prop :=
  s.cfg.Legal ∧ s.BufOk ∧ s.blen ≤ s.cfg.bufferSize ∧ s.last < 2 ^ s.cfg.timeW ∧ PassInv s

/-- The state less the scan registers, which no later command reads (spec/10_state.md R22, R26). -/
def forget (s : State) : State :=
  { s with vcrc := 0, pos := 0, len := 0, lastEnd := 0, f1 := 0, acc := false }

/-- `forget` under an outcome. -/
def forgetResult : Result → Result
  | .next s => .next (forget s)
  | .fault r => .fault r
  | .refused r => .refused r

/-- The length of the frame that begins at the head of the bytes, if a frame does: the length byte is
legal, the candidate is complete, and its residue under the XMODEM profile is zero
(spec/42_frame_scanner.md R152, R155; spec/30_encoding.md R74). -/
def frameAtHead (c : Config) : List Byte → Option Nat
  | [] => none
  | b :: bs =>
    if c.minFrame ≤ b.toNat + 4 ∧ b.toNat + 4 ≤ c.maxFrame ∧ b.toNat + 4 ≤ (b :: bs).length ∧
        crc16 xmodem ((b :: bs).take (b.toNat + 4)) = 0
    then some (b.toNat + 4) else none

/-- How many bytes are skipped as the ACK of frame `f` (spec/30_encoding.md R76; spec/42_frame_scanner.md
R160). -/
def ackLength (f rest : List Byte) : Nat :=
  match f, rest with
  | _ :: f1 :: _, a :: _ =>
    if a.toNat = f1.toNat / 16 * 16 + 10 ∨ (f1.toNat = 15 ∧ a.toNat = 26) then 1 else 0
  | _, _ => 0

/-- A left-to-right pass over the bytes `bs`, the first of which stands at index `i`: the accepted
frames in order, and the end offset of the last one. The first argument bounds the number of positions
tried. -/
def decodeFrom (c : Config) : Nat → Nat → List Byte → List (List Byte) × Option Nat
  | 0, _, _ => ([], none)
  | n + 1, i, bs =>
    match bs, frameAtHead c bs with
    | [], _ => ([], none)
    | _ :: rest, none => decodeFrom c n (i + 1) rest
    | b :: rest, some k =>
      let f := (b :: rest).take k
      let after := (b :: rest).drop k
      let r := decodeFrom c n (i + k + ackLength f after) (after.drop (ackLength f after))
      (f :: r.1, some (r.2.getD (i + k)))

/-- The decoder: the frames of a pass over the buffered bytes, and the bytes kept for the next pass
(spec/42_frame_scanner.md R150, R165). -/
def decodeBytes (c : Config) (bs : List Byte) : List (List Byte) × List Byte :=
  match decodeFrom c bs.length 0 bs with
  | (fs, some e) => (fs, bs.drop e)
  | (fs, none) => (fs, bs.drop (bs.length - c.maxFrame))

/-- The event of an accepted frame (spec/43_hex_publish.md R194). -/
def eventOf (c : Config) (f : List Byte) : PubEvent := ⟨c.topic, hex f⟩

/-- Every `RX.BYTE` of the sequence comes directly after an `RX.OPEN` or another `RX.BYTE`: the sequence is
built from `CRC.*`, `NOP`, `INGEST`, `SCAN` and `STEP` as far as the order of its commands can tell
(spec/30_encoding.md R92, R94). -/
def BurstsUnbroken (ins : List HostInput) : Prop :=
  ∀ before w now later, ins = before ++ .command w now :: later → ∀ b, decodeWord w = .rxByte b →
    ∃ v n, before.getLast? = some (.command v n) ∧
      (decodeWord v = .rxOpen ∨ ∃ c, decodeWord v = .rxByte c)

end Sys2Proof.Safety
end

