-- ==== Sys2Proof/Certificates/Slice0/Obligations.lean ====
section
/-! DEFINITION. The statements about the machine. Each docstring names the rules of spec/ it formalises
or rests on. -/

open Sys2Proof Sys2Proof.Machine Sys2Proof.Safety

/-! ### Encoding -/

/-- Words written out from the opcode map (spec/30_encoding.md R87) decode to what they stand for. -/
def Obligations.OpcodeMapWordsDecode : Prop :=
  decodeTableWord 16 0b000000000000 = some .nop ∧
  decodeTableWord 16 0b000100000000 = some .crcRestart ∧
  decodeTableWord 16 0b001000110001 = some (.crcAdd 0x31) ∧
  decodeTableWord 16 0b001100000000 = some .crcCalc ∧
  decodeTableWord 16 0b010000000000 = some .rxOpen ∧
  decodeTableWord 16 0b010110111100 = some (.rxByte 0xBC) ∧
  decodeTableWord 16 0b011000000000 = some .scan ∧
  decodeTableWord 16 0b011100000000 = some .reserved7 ∧
  decodeTableWord 16 0b110100000000 = some (.reserved8F 0xD)

/-- Decoding the encoding of a well-formed command gives it back, with every operand, and a machine to
which that word is presented runs that command (R86 to R90). (How a word is presented, and that the
pulse of `crc_out_valid` is over, are the model's choice: logs 5 and 3.) -/
def Obligations.EncodedCommandDecodesAndRuns : Prop :=
  ∀ i : Instr, i.wellFormed = true →
    decodeTableWord 16 (encode i).toNat = some i ∧
    ∀ s : State,
      step (s.withFetchWord 16 (encode i).toNat) = exec i { s with st := .idle, crcOutValid := false }

/-- Every 12-bit word matches exactly one line of the opcode map, and the decoder answers that line's
command with the operand `cmd[7:0]` (R87, R88); a word that differs in ignored bits alone decodes the
same (R90); an answer is always well formed. -/
def Obligations.EveryWordMatchesOneOpcodeLine : Prop :=
  (∀ w : CmdWord, ∃ r ∈ opcodeMap, r.covers w = true ∧
      (∀ q ∈ opcodeMap, q.covers w = true → q = r) ∧ (decodeWord w).mnemonic = r.mnemonic) ∧
  (∀ (w : CmdWord) (b : Byte), decodeWord w = .crcAdd b ∨ decodeWord w = .rxByte b →
      b.toNat = w.toNat % 256) ∧
  (∀ v w : CmdWord, v.toNat / 256 = w.toNat / 256 → v.toNat / 256 ≠ 2 → v.toNat / 256 ≠ 5 →
      decodeWord v = decodeWord w) ∧
  (∀ w : CmdWord, (decodeWord w).wellFormed = true)

/-! ### The step -/

/-- In IDLE, the command at the head of what the host presents is taken and run: the step is `exec` of
the decoded command, in the state where the word is gone from the queue, its clock reading stands on the
`now` port and the pulse of `crc_out_valid` is over (R86, R221; the queue and the length of the pulse are
the model's choice: logs 5 and 3). The same of a word presented to any
machine. -/
def Obligations.StepRunsDecodedCommand : Prop :=
  (∀ (s : State) (w : CmdWord) (now : Nat) (rest : List HostInput),
    s.st = .idle → s.pending = .command w now :: rest →
      step s = exec (decodeWord w) { s with pending := rest, nowIn := now, crcOutValid := false }) ∧
  (∀ (s : State) (nbits w : Nat), w < 2 ^ 12 →
    ∃ i, decodeTableWord nbits w = some i ∧
      step (s.withFetchWord nbits w) = exec i { s with st := .idle, crcOutValid := false })

/-- In IDLE with no command presented nothing happens but the end of the pulse (R221, third row; the
length of the pulse is the model's choice: log 3). -/
def Obligations.IdleWithoutCommandWaits : Prop :=
  ∀ s : State, s.st = .idle → s.pending = [] → step s = .next { s with crcOutValid := false }

/-- While a pass is in progress no command is accepted and none is lost: without a reset the step is one
transition of the state machine, and what the host presents is unchanged after it (R226; that a step is
one transition here, and that it ends the pulse of `crc_out_valid`, are the model's choice: logs 9 and
3). -/
def Obligations.BusyMachineTakesNoCommand : Prop :=
  ∀ s : State, s.st ≠ .idle → (∀ p rest, s.pending ≠ .reset p :: rest) →
    step s = fsmStep { s with crcOutValid := false } ∧
    ∀ t, step s = .next t → t.pending = s.pending ∧ t.nowIn = s.nowIn ∧ t.last = s.last ∧
      t.crc = s.crc

/-! ### Reset and construction -/

/-- The values after reset that the spec gives (R38, R271), for all constants and sampled parameters.
`State.reset` is that state for the constants of this hardware (R10) and, the model's own choice (log 4),
the XMODEM profile. -/
def Obligations.ResetValues : Prop :=
  (∀ (c : Config) (p : CrcParams),
    let s := State.resetWith c p
    s.st = .idle ∧ s.cmdReady = true ∧ s.blen = 0 ∧ s.validPart = [] ∧ (∀ i, bufRead s i = none) ∧
    s.crc = p.init ∧ s.last = 0 ∧ s.out = [] ∧ s.cfg = c ∧ s.e = p) ∧
  State.reset = State.resetWith
    { minFrame := 6, maxFrame := 32, readTimeout := 50, bufferSize := 128, timeW := 32
      topic := defaultTopic, emptyStepOpens := false }
    { poly := 0x1021, init := 0, xorout := 0, refin := false, refout := false }

/-- The state after reset meets the invariant, for every legal configuration. -/
def Obligations.ResetMeetsInvariant : Prop :=
  (∀ (c : Config) (p : CrcParams), c.Legal → Inv (State.resetWith c p)) ∧ Inv State.reset

/-- A reset, also one that falls into a pass, gives every piece of state its reset value with the newly
sampled parameters; the constants stay, and the events already emitted remain emitted (R270, R271, R272;
that `out` starts empty again and the earlier events are kept in `delivered` is log 8). -/
def Obligations.ResetAbandonsThePass : Prop :=
  ∀ (s : State) (p : CrcParams) (rest : List HostInput), s.pending = .reset p :: rest →
    ∃ t, step s = .next t ∧ t.st = .idle ∧ t.blen = 0 ∧ t.validPart = [] ∧ t.crc = p.init ∧
      t.last = 0 ∧ t.out = [] ∧ t.e = p ∧ t.cfg = s.cfg ∧ t.pending = rest ∧
      t.delivered ++ t.out = s.delivered ++ s.out

/-- An instance is built exactly for a configuration within R11 (and a positive TIME_W). -/
def Obligations.ConstructionRefusesIllegalConfiguration : Prop :=
  ∀ (c : Config) (p : CrcParams),
    ((c.minFrame ≤ c.maxFrame ∧ c.maxFrame ≤ c.bufferSize ∧ 1 ≤ c.bufferSize ∧
        c.readTimeout < 2 ^ c.timeW ∧ 1 ≤ c.timeW) → construct c p = .next (State.resetWith c p)) ∧
    (¬ (c.minFrame ≤ c.maxFrame ∧ c.maxFrame ≤ c.bufferSize ∧ 1 ≤ c.bufferSize ∧
        c.readTimeout < 2 ^ c.timeW ∧ 1 ≤ c.timeW) → construct c p = .refused .illegalConfiguration)

/-! ### NOP and the reserved opcodes -/

/-- `NOP` changes nothing (R212), and in the hardware a reserved opcode neither (R89). -/
def Obligations.NopAndReservedChangeNothing : Prop :=
  ∀ s : State, exec .nop s = .next s ∧ exec .reserved7 s = .next s ∧
    ∀ op : BitVec 4, exec (.reserved8F op) s = .next s

/-! ### The CRC engine -/

/-- R101: `CRC.RESTART`, word 0x100, loads `E.init` and touches nothing else; two in a row equal one;
straight after reset it changes nothing. -/
def Obligations.CrcRestartLoadsInitial : Prop :=
  encode .crcRestart = 0x100 ∧
  (∀ s : State, exec .crcRestart s = .next { s with crc := s.e.init }) ∧
  (∀ s : State, andThen (exec .crcRestart s) (exec .crcRestart) = exec .crcRestart s) ∧
  (∀ (c : Config) (p : CrcParams),
    exec .crcRestart (State.resetWith c p) = .next (State.resetWith c p)) ∧
  (∀ p : CrcParams, crcStart p = p.init)

/-- R106, in exact arithmetic. -/
def Obligations.ShiftStepInExactArithmetic : Prop :=
  ∀ (p : CrcParams) (r : CrcWord),
    (lfsr1 p r).toNat = shiftNumber p.poly.toNat r.toNat

/-- R102: `CRC.ADD b`, word `0x200 | b`, exclusive-ors the byte, bit-reversed when `refin`, into bits 15..8 and makes eight
shift steps, all in exact arithmetic; nothing else changes. The corner cases: a zero byte leaves a zero
register; `E.poly = 0` makes it a plain shift; `E.init`, `E.xorout` and `E.refout` are not read. -/
def Obligations.CrcAddInExactArithmetic : Prop :=
  (∀ b : Byte, encode (.crcAdd b) = 0x200 ||| b.setWidth 12) ∧
  (∀ (s : State) (b d : Byte),
    (∀ k, k < 8 → d.getLsbD k = if s.e.refin then b.getLsbD (7 - k) else b.getLsbD k) →
    ∃ r : CrcWord,
      exec (.crcAdd b) s = .next { s with crc := r } ∧
      r.toNat = (shiftNumber s.e.poly.toNat)^[8] (s.crc.toNat ^^^ (256 * d.toNat))) ∧
  (∀ s : State, s.crc = 0 → exec (.crcAdd 0) s = .next s) ∧
  (∀ (s : State) (b : Byte), s.e.poly = 0 →
    exec (.crcAdd b) s = .next { s with crc := (s.crc ^^^ highByte (inputByte s.e b)) <<< 8 }) ∧
  (∀ (p q : CrcParams) (r : CrcWord) (b : Byte), p.poly = q.poly → p.refin = q.refin →
    crcAddByte p r b = crcAddByte q r b)

/-- R103: `CRC.CALC`, word 0x300, puts the register, bit-reversed as a whole when `refout`, exclusive-ored with
`xorout`, on `crc_out`, raises `crc_out_valid`, and leaves `crc` and everything else alone; a second one
gives the same; straight after `CRC.RESTART` or reset it answers the CRC of the empty message, 0x0000 for
XMODEM. (How long `crc_out_valid` stays raised is the model's choice: log 3.) -/
def Obligations.CrcCalcPutsResultOnPort : Prop :=
  encode .crcCalc = 0x300 ∧
  (∀ s : State, ∃ v : CrcWord,
    exec .crcCalc s = .next { s with crcOut := v, crcOutValid := true } ∧
    ∀ k, k < 16 → v.getLsbD k =
      ((if s.e.refout then s.crc.getLsbD (15 - k) else s.crc.getLsbD k) ^^ s.e.xorout.getLsbD k)) ∧
  (∀ s : State, andThen (exec .crcCalc s) (exec .crcCalc) = exec .crcCalc s) ∧
  (∀ s t : State, andThen (exec .crcRestart s) (exec .crcCalc) = .next t →
    t.crcOut = crc16 s.e [] ∧
    t.crcOut = (if s.e.refout then rev16 s.e.init else s.e.init) ^^^ s.e.xorout) ∧
  (∀ (c : Config) (p : CrcParams), ∃ t, exec .crcCalc (State.resetWith c p) = .next t ∧
    t.crcOut = crc16 p [] ∧ t.crcOut = (if p.refout then rev16 p.init else p.init) ^^^ p.xorout) ∧
  crc16 xmodem [] = 0

/-- R104 and R105: the two bit reversals, bit by bit, their own inverses, with the examples. -/
def Obligations.BitReversals : Prop :=
  (∀ (b : Byte) (k : Nat), k < 8 → (rev8 b).getLsbD k = b.getLsbD (7 - k)) ∧
  (∀ (v : CrcWord) (k : Nat), k < 16 → (rev16 v).getLsbD k = v.getLsbD (15 - k)) ∧
  (∀ b : Byte, rev8 (rev8 b) = b) ∧ (∀ v : CrcWord, rev16 (rev16 v) = v) ∧
  (rev8 0x01 = 0x80 ∧ rev8 0x31 = 0x8C ∧ rev8 0x12 = 0x48 ∧ rev8 0xF0 = 0x0F ∧ rev8 0xA5 = 0xA5 ∧
    rev8 0x00 = 0x00 ∧ rev8 0xFF = 0xFF) ∧
  (rev16 0x00FF = 0xFF00 ∧ rev16 0x0001 = 0x8000 ∧ rev16 0x31C3 = 0xC38C ∧ rev16 0x1234 = 0x2C48)

/-- R108: for every parameter record the shift step is linear in the register, and the byte addition in
the pair of register and byte. -/
def Obligations.CrcAdditionIsLinear : Prop :=
  (∀ (p : CrcParams) (r q : CrcWord), lfsr1 p (r ^^^ q) = lfsr1 p r ^^^ lfsr1 p q) ∧
  (∀ (p : CrcParams) (r q : CrcWord) (b d : Byte),
    crcAddByte p (r ^^^ q) (b ^^^ d) = crcAddByte p r b ^^^ crcAddByte p q d)

/-- R112, the residue law of the XMODEM profile: a message with two bytes appended has residue zero
exactly when the two bytes are its CRC, high byte first. -/
def Obligations.ResidueLaw : Prop :=
  ∀ (m : List Byte) (h l : Byte),
    crc16 xmodem (m ++ [h, l]) = 0 ↔ h.toNat * 256 + l.toNat = (crc16 xmodem m).toNat

/-- R110 with the expansion of R92: after the commands of `CRC16` the port `crc_out` holds the CRC of the
message under engine E's parameters, whatever the register held before; the buffer, the timestamp and the
events are untouched. (The queue, the clock reading 0 beside the commands and the length of the pulse are
the model's choice: logs 5 and 3.) -/
def Obligations.Crc16CommandsComputeMessageCrc : Prop :=
  ∀ (s : State) (bs : List Byte) (rest : List HostInput), s.st = .idle →
    s.pending = expand s.cfg (.crc16 bs) ++ rest →
    runSteps (bs.length + 2) s = .next
      { s with crc := crcFeed s.e s.e.init bs, crcOut := crc16 s.e bs, crcOutValid := true
               nowIn := 0, pending := rest }

/-! ### The frame buffer -/

/-- R131: `RX.OPEN`, word 0x400, with the reading `now` on its `TIME_W` wires (log 11). `g` is the modular gap, given by its two properties (R132)
and not by the model's function. The test is strict; a clear leaves no readable byte; `last` is updated
either way; nothing else changes. -/
def Obligations.RxOpenTestsTheGap : Prop :=
  encode .rxOpen = 0x400 ∧
  ∀ (s : State) (g : Nat), g < 2 ^ s.cfg.timeW →
    (g : Int) ≡ (s.nowIn : Int) - (s.last : Int) [ZMOD ((2 ^ s.cfg.timeW : Nat) : Int)] →
    (s.cfg.readTimeout < g →
      ∃ t, exec .rxOpen s = .next t ∧
        t = { s with buf := t.buf, blen := 0, last := s.nowIn % 2 ^ s.cfg.timeW } ∧
        t.validPart = [] ∧ ∀ i, bufRead t i = none) ∧
    (g ≤ s.cfg.readTimeout → exec .rxOpen s = .next { s with last := s.nowIn % 2 ^ s.cfg.timeW })

/-- R132: the gap is the unique value below `2^TIME_W` congruent to `now - last`; it is the true distance
when the clock has wrapped at most once, and does not change when both readings advance together. -/
def Obligations.TimeGapIsModular : Prop :=
  (∀ w now last : Nat, timeGap w now last < 2 ^ w ∧
    (timeGap w now last : Int) ≡ (now : Int) - (last : Int) [ZMOD ((2 ^ w : Nat) : Int)]) ∧
  (∀ w now last g : Nat, g < 2 ^ w →
    (g : Int) ≡ (now : Int) - (last : Int) [ZMOD ((2 ^ w : Nat) : Int)] → g = timeGap w now last) ∧
  (∀ w last d : Nat, last < 2 ^ w → d < 2 ^ w → timeGap w ((last + d) % 2 ^ w) last = d) ∧
  (∀ w now last d : Nat, timeGap w ((now + d) % 2 ^ w) ((last + d) % 2 ^ w) = timeGap w now last)

/-- R133: `RX.BYTE b`, word `0x500 | b`, below capacity writes the byte at index `blen` and adds one to `blen`; every other
byte reads as before and nothing else changes; at capacity no state changes at all (R134). -/
def Obligations.RxByteAppendsOrDrops : Prop :=
  (∀ b : Byte, encode (.rxByte b) = 0x500 ||| b.setWidth 12) ∧
  (∀ (s : State) (b : Byte), s.BufOk → s.blen < s.cfg.bufferSize →
    ∃ t, exec (.rxByte b) s = .next t ∧ t = { s with buf := t.buf, blen := s.blen + 1 } ∧
      (∀ i, bufRead t i = if i = s.blen then some b else bufRead s i) ∧
      t.validPart = s.validPart ++ [b]) ∧
  (∀ (s : State) (b : Byte), s.cfg.bufferSize ≤ s.blen → exec (.rxByte b) s = .next s)

/-- R138, the closed form of `INGEST` as its commands run (R92, R130): clear if the gap exceeds the
timeout, then the bytes that fit, in order; `last` is the reading; nothing else changes, nothing is
emitted. (That the pulse of `crc_out_valid` is over is the model's choice, log 3; that the reading stays
on the `now` port and the commands are gone from the queue is too, log 5.) -/
def Obligations.IngestClosedForm : Prop :=
  ∀ (s : State) (bs : List Byte) (now : Nat) (rest : List HostInput), s.BufOk →
    s.blen ≤ s.cfg.bufferSize → now < 2 ^ s.cfg.timeW → s.st = .idle →
    s.pending = expand s.cfg (.ingest bs now) ++ rest →
    ∃ t, runSteps (bs.length + 1) s = .next t ∧
      t = { s with buf := t.buf, blen := t.blen, last := now, nowIn := now, crcOutValid := false
                   pending := rest } ∧
      t.BufOk ∧ t.blen = t.validPart.length ∧
      t.validPart = ((if s.cfg.readTimeout < timeGap s.cfg.timeW now s.last then [] else s.validPart)
        ++ bs).take s.cfg.bufferSize

/-- The first `RX.OPEN` after reset, and any on an empty buffer, does the same whatever `last` held
(R38, R137). -/
def Obligations.TimestampUnobservableOnEmptyBuffer : Prop :=
  ∀ (s : State) (l : Nat), s.BufOk → s.blen = 0 →
    exec .rxOpen { s with last := l } = exec .rxOpen s

/-! ### The scanner, one micro-operation at a time -/

/-- R152 and R153: `SCAN.HDR` computes `len` without a wrap and changes nothing else; the candidate goes on
to `SCAN.CHECK` exactly when its length is legal and it does not run past the buffered bytes; otherwise
the cursor moves on by one byte and nothing else is written. -/
def Obligations.ScanHdrComputesLength : Prop :=
  ∀ (s : State) (b : Byte), bufRead s s.pos = some b →
    scanHdr s = .next { s with len := b.toNat + 4 } ∧
    (lengthOK { s with len := b.toNat + 4 } = true ↔
      s.cfg.minFrame ≤ b.toNat + 4 ∧ b.toNat + 4 ≤ s.cfg.maxFrame ∧ s.pos + (b.toNat + 4) ≤ s.blen) ∧
    (s.st = .hunt →
      ((s.cfg.minFrame ≤ b.toNat + 4 ∧ b.toNat + 4 ≤ s.cfg.maxFrame ∧
          s.pos + (b.toNat + 4) ≤ s.blen) →
        fsmStep s = .next { s with len := b.toNat + 4, st := .check }) ∧
      (¬ (s.cfg.minFrame ≤ b.toNat + 4 ∧ b.toNat + 4 ≤ s.cfg.maxFrame ∧
          s.pos + (b.toNat + 4) ≤ s.blen) →
        fsmStep s = .next { s with len := b.toNat + 4, pos := s.pos + 1 }))

/-- R155 and R156: `SCAN.CHECK` feeds a fresh XMODEM engine with all bytes of the candidate, whatever
`vcrc` held, and touches nothing but `vcrc`; `crcOK` holds exactly when the CRC of those bytes is zero;
then `SCAN.EMIT` runs, and otherwise the cursor moves on by one byte. -/
def Obligations.ScanCheckIsFreshXmodem : Prop :=
  ∀ s : State, s.BufOk → s.pos + s.len ≤ s.blen →
    ∃ t, scanCheck s = .next t ∧
      t = { s with vcrc := crcFeed xmodem xmodem.init ((s.validPart.drop s.pos).take s.len) } ∧
      (crcOK t = true ↔ crc16 xmodem ((s.validPart.drop s.pos).take s.len) = 0) ∧
      (s.st = .check →
        (crc16 xmodem ((s.validPart.drop s.pos).take s.len) = 0 →
          fsmStep s = .next { t with st := .emit }) ∧
        (crc16 xmodem ((s.validPart.drop s.pos).take s.len) ≠ 0 →
          fsmStep s = .next { t with pos := s.pos + 1, st := .hunt }))

/-- R158: `SCAN.EMIT` publishes the hex of the whole candidate under TOPIC, remembers its byte 1, moves
past it and records the end offset; nothing else changes, and `SCAN.ACK` runs next. -/
def Obligations.ScanEmitPublishesAndAdvances : Prop :=
  ∀ s : State, s.BufOk → s.pos + s.len ≤ s.blen → 4 ≤ s.len →
    ∃ b, bufRead s (s.pos + 1) = some b ∧
      scanEmit s = .next { s with
        out := s.out ++ [⟨s.cfg.topic, hex ((s.validPart.drop s.pos).take s.len)⟩]
        f1 := b, pos := s.pos + s.len, lastEnd := s.pos + s.len, acc := true } ∧
      (s.st = .emit → ∃ t, scanEmit s = .next t ∧ fsmStep s = .next { t with st := .ack })

/-- R160: `SCAN.ACK` skips the byte at `pos` exactly when it is `F[1]` with the low nibble replaced by
0xA, or 0x1A when `F[1]` is 0x0F; nothing but `pos` changes, `lastEnd` in particular not; the machine
then hunts on. That at the end of the buffer there is nothing to skip is the spec's own reading (R161,
decision D8), which the model follows (log 12). -/
def Obligations.ScanAckSkipsOneMatchingByte : Prop :=
  (∀ (s : State) (a : Byte), s.pos < s.blen → bufRead s s.pos = some a →
    (a.toNat = s.f1.toNat / 16 * 16 + 10 ∨ s.f1.toNat = 15 ∧ a.toNat = 26 →
      scanAck s = .next { s with pos := s.pos + 1 }) ∧
    (¬ (a.toNat = s.f1.toNat / 16 * 16 + 10 ∨ s.f1.toNat = 15 ∧ a.toNat = 26) →
      scanAck s = .next s)) ∧
  (∀ s : State, s.blen ≤ s.pos → scanAck s = .next s) ∧
  (∀ s t : State, s.st = .ack → scanAck s = .next t → fsmStep s = .next { t with st := .hunt })

/-- R165: after a pass that accepted, `SCAN.PRUNE` keeps the bytes from the last accepted end offset on,
however many; otherwise it keeps the last `MAX_FRAME_LENGTH` bytes at most. It changes the buffer alone
and never lengthens it. -/
def Obligations.ScanPruneKeepsASuffix : Prop :=
  ∀ s : State, s.BufOk → s.lastEnd ≤ s.blen →
    scanPrune s = { s with buf := (scanPrune s).buf, blen := (scanPrune s).blen } ∧
    (scanPrune s).BufOk ∧ (scanPrune s).blen ≤ s.blen ∧
    (s.acc = true → (scanPrune s).blen = s.blen - s.lastEnd ∧
      (scanPrune s).validPart = s.validPart.drop s.lastEnd ∧
      ∀ i, bufRead (scanPrune s) i = bufRead s (i + s.lastEnd)) ∧
    (s.acc = false → s.cfg.maxFrame < s.blen → (scanPrune s).blen = s.cfg.maxFrame ∧
      (scanPrune s).validPart = s.validPart.drop (s.blen - s.cfg.maxFrame) ∧
      ∀ i, bufRead (scanPrune s) i = bufRead s (i + (s.blen - s.cfg.maxFrame))) ∧
    (s.acc = false → s.blen ≤ s.cfg.maxFrame → scanPrune s = s)

/-! ### The scanner as a whole -/

/-- `SCAN` completes in every state whose buffer holds a value in exactly the cells below `blen`: it
performs no read outside the valid part (R51, R240), ends with the cursor at the end of the buffer and
the end offset within it (R166), and is back in the state it started in (R222). (That the cursor and the
end offset can still be read after the pass is the model's choice: log 14.) -/
def Obligations.ScanCompletes : Prop :=
  ∀ s : State, s.BufOk →
    ∃ t, exec .scan s = .next t ∧ t.pos = s.blen ∧ t.lastEnd ≤ s.blen ∧ t.st = s.st ∧ t.BufOk

/-- What `SCAN` leaves unchanged (R150): everything but the scan registers, the buffer and the events; and
what it does to the buffer (R165): the bytes from the cut on are kept, in order, the rest is gone, the cut
being the end offset of the last accepted frame, or what brings the length down to `MAX_FRAME_LENGTH`. A
frame was accepted exactly when an event was appended. (The statement reads `acc` and `lastEnd` after the
pass; that they keep the pass's values there is the model's choice: log 14.) -/
def Obligations.ScanFrame : Prop :=
  ∀ s t : State, s.BufOk → exec .scan s = .next t →
    t = { s with vcrc := t.vcrc, pos := t.pos, len := t.len, lastEnd := t.lastEnd, f1 := t.f1
                 acc := t.acc, buf := t.buf, blen := t.blen, out := t.out } ∧
    s.out <+: t.out ∧ (t.acc = true ↔ t.out ≠ s.out) ∧
    t.blen = s.blen - (if t.acc then t.lastEnd else s.blen - s.cfg.maxFrame) ∧
    (∀ i, bufRead t i = bufRead s (i + (if t.acc then t.lastEnd else s.blen - s.cfg.maxFrame)))

/-- `SCAN` computes the decoder over plain byte sequences (R93, R150): the events are those of the
decoder's frames, in order, and the bytes kept are the decoder's. -/
def Obligations.ScanComputesTheDecoder : Prop :=
  ∀ s : State, s.BufOk →
    ∃ t, exec .scan s = .next t ∧
      t.out = s.out ++ (decodeBytes s.cfg s.validPart).1.map (eventOf s.cfg) ∧
      t.validPart = (decodeBytes s.cfg s.validPart).2

/-- The state machine started by `SCAN` is back in IDLE after at most `4 * blen + 2` transitions, and has
done exactly what the command does (R221, R222): the same next state, or the same fault. -/
def Obligations.StateMachineRefinesScan : Prop :=
  ∀ s : State, s.st = .idle →
    ∃ n, n ≤ 4 * s.blen + 2 ∧ fsmRun n (beginScan s) = exec .scan s

/-- Every published payload is the hex of a valid frame that stood in the buffer: a run of bytes whose
first byte gives its length, of a legal length, whose XMODEM residue is zero (R74, R194, R199); and
nothing already published is changed. -/
def Obligations.OnlyValidFramesArePublished : Prop :=
  ∀ s t : State, s.BufOk → exec .scan s = .next t →
    ∃ evs, t.out = s.out ++ evs ∧
      ∀ ev ∈ evs, ∃ (p : Nat) (b : Byte) (f : List Byte),
        bufRead s p = some b ∧ s.cfg.minFrame ≤ b.toNat + 4 ∧ b.toNat + 4 ≤ s.cfg.maxFrame ∧
        p + (b.toNat + 4) ≤ s.blen ∧ memRead s p (b.toNat + 4) = some f ∧ crc16 xmodem f = 0 ∧
        ev = ⟨s.cfg.topic, hex f⟩

/-- R167, the round trip, with garbage on both sides: a frame built from a length byte, the bytes after it
and their CRC, high byte first, is published, once and alone, when no candidate that starts in the garbage
is a valid frame; what follows it stays in the buffer. -/
def Obligations.RoundTripWithGarbage : Prop :=
  ∀ (s : State) (g1 p g2 : List Byte) (l : Byte) (f : List Byte), s.BufOk →
    p.length = l.toNat + 1 → s.cfg.minFrame ≤ l.toNat + 4 → l.toNat + 4 ≤ s.cfg.maxFrame →
    f = (l :: p) ++ [(crc16 xmodem (l :: p)).extractLsb' 8 8, (crc16 xmodem (l :: p)).extractLsb' 0 8] →
    s.validPart = g1 ++ f ++ g2 →
    (∀ k, k < g1.length → frameAtHead s.cfg ((g1 ++ f ++ g2).drop k) = none) →
    (∀ k, k < g2.length → frameAtHead s.cfg (g2.drop k) = none) →
    ∃ t, exec .scan s = .next t ∧ t.out = s.out ++ [⟨s.cfg.topic, hex f⟩] ∧ t.validPart = g2

/-- After a `SCAN` that published nothing the buffer holds at most `MAX_FRAME_LENGTH` bytes, exactly so
many when it held as many before, and they are the newest (R169); when it already held no more than that,
the pass has changed nothing but the scan registers (R59). -/
def Obligations.FruitlessScanTruncatesOnly : Prop :=
  ∀ s t : State, s.BufOk → exec .scan s = .next t → t.out = s.out →
    t.blen = min s.blen s.cfg.maxFrame ∧
    t.validPart = s.validPart.drop (s.blen - s.cfg.maxFrame) ∧
    (s.blen ≤ s.cfg.maxFrame → forget t = forget s)

/-- R170: a valid frame at the cursor followed by its ACK byte: `SCAN.EMIT` and `SCAN.ACK` move the cursor
past both, and the end offset stays at the end of the frame, so that the ACK byte is retained (R163). -/
def Obligations.AckByteIsSkippedInTheSamePass : Prop :=
  ∀ (s : State) (a b : Byte), s.BufOk → 4 ≤ s.len → s.pos + s.len < s.blen →
    bufRead s (s.pos + 1) = some b → bufRead s (s.pos + s.len) = some a →
    (a.toNat = b.toNat / 16 * 16 + 10 ∨ b.toNat = 15 ∧ a.toNat = 26) →
    ∃ t, andThen (scanEmit s) scanAck = .next t ∧ t.pos = s.pos + s.len + 1 ∧
      t.lastEnd = s.pos + s.len ∧ t.acc = true

/-- R168: a frame whose length byte is taken as the ACK of the frame before it, and behind which nothing
else is accepted, is kept whole by the pass and published by the next one. -/
def Obligations.LengthByteTakenAsAckIsPublishedOnePassLate : Prop :=
  ∀ (s : State) (f g : List Byte), s.BufOk → s.validPart = f ++ g →
    frameAtHead s.cfg (f ++ g) = some f.length → frameAtHead s.cfg g = some g.length →
    ackLength f g = 1 → (∀ k, 1 ≤ k → k < g.length → frameAtHead s.cfg (g.drop k) = none) →
    ∃ t u, exec .scan s = .next t ∧ t.out = s.out ++ [eventOf s.cfg f] ∧ t.validPart = g ∧
      exec .scan t = .next u ∧ u.out = s.out ++ [eventOf s.cfg f, eventOf s.cfg g] ∧ u.validPart = []

/-- R154: the first bytes of a frame whose tail has not arrived survive the pass, when no accepted frame
runs into them: they are still the last bytes of the buffer. (The premise reads `lastEnd` after the pass;
that it keeps the pass's value there is the model's choice: log 14.) -/
def Obligations.IncompleteFrameSurvivesThePass : Prop :=
  ∀ (s t : State) (g x : List Byte) (b : Byte), s.BufOk → s.validPart = g ++ b :: x →
    (b :: x).length < b.toNat + 4 → b.toNat + 4 ≤ s.cfg.maxFrame → exec .scan s = .next t →
    (t.out ≠ s.out → t.lastEnd ≤ g.length) → ∃ r, t.validPart = r ++ b :: x

/-- R172: the frames of one pass fit into the buffer side by side. -/
def Obligations.FramesOfAPassFitTheBuffer : Prop :=
  ∀ s t : State, s.BufOk → exec .scan s = .next t →
    (t.out.length - s.out.length) * max s.cfg.minFrame 4 ≤ s.blen

/-! ### The hex encoder and the publish port -/

/-- R190, R191, R192: two characters per byte, the digit of the high nibble first, digits `0`..`9` and
`A`..`F` only; the encoding of a concatenation is the concatenation; different byte sequences have
different encodings. -/
def Obligations.HexLaws : Prop :=
  (∀ bs, (hex bs).length = 2 * bs.length) ∧
  (∀ a b, hex (a ++ b) = hex a ++ hex b) ∧
  (∀ a b, hex a = hex b → a = b) ∧
  (∀ bs, ∀ c ∈ hex bs, (48 ≤ c.toNat ∧ c.toNat ≤ 57) ∨ (65 ≤ c.toNat ∧ c.toNat ≤ 70)) ∧
  (∀ (bs : List Byte) (k : Nat) (b : Byte), bs[k]? = some b →
    ((hex bs)[2 * k]?).map BitVec.toNat =
      some (if b.toNat / 16 < 10 then 48 + b.toNat / 16 else 55 + b.toNat / 16) ∧
    ((hex bs)[2 * k + 1]?).map BitVec.toNat =
      some (if b.toNat % 16 < 10 then 48 + b.toNat % 16 else 55 + b.toNat % 16))

/-- R197: the publish port presents the characters of a hex string in order, one per cycle, the first and
no other marked `sof`, the last and no other marked `eof`; the streams of two events follow each other. -/
def Obligations.PublishPortFramesEachEvent : Prop :=
  (∀ (cs : Chars) (k : Nat),
    (pubCycles cs)[k]? = cs[k]?.map
      (fun c => ⟨c, decide (k = 0), decide (k + 1 = cs.length)⟩)) ∧
  (∀ (s : State) (ev : PubEvent),
    (publish ev s).pubStream = s.pubStream ++ pubCycles ev.payload)

/-! ### The whole machine -/

/-- Every step keeps the invariant, in IDLE and in the middle of a pass (R37, R135, R164). -/
def Obligations.StepKeepsInvariant : Prop :=
  ∀ s t : State, Inv s → step s = .next t → Inv t

/-- In a state that meets the invariant no step faults or refuses: every command is total, reserved
opcodes included, and a pass never reads outside the valid part (R51, R240, R214). (That a step runs a
reserved opcode as the hardware does, where R89 asks a model to refuse a sequence with one, is the
model's choice: log 6.) -/
def Obligations.StepNeverStops : Prop :=
  ∀ s : State, Inv s → ∃ t, step s = .next t

/-- Which command may change what (R20, R21, R25, R28, R30, R52): no command writes the configuration;
`crc` is written by `CRC.RESTART` and `CRC.ADD` alone, `crc_out` by `CRC.CALC` alone, `last` by `RX.OPEN`
alone, the buffer by `RX.OPEN`, `RX.BYTE` and `SCAN` alone, the events and the scan registers by `SCAN`
alone. (The end of the pulse of `crc_out_valid` is the step's and no command's: log 3.) -/
def Obligations.EachRegisterHasItsWriters : Prop :=
  ∀ (i : Instr) (s t : State), exec i s = .next t →
    (t.cfg = s.cfg ∧ t.e = s.e ∧ t.st = s.st ∧ t.nowIn = s.nowIn ∧ t.pending = s.pending ∧
      t.delivered = s.delivered) ∧
    (t.crc ≠ s.crc → i = .crcRestart ∨ ∃ b, i = .crcAdd b) ∧
    ((t.crcOut ≠ s.crcOut ∨ t.crcOutValid ≠ s.crcOutValid) → i = .crcCalc) ∧
    (t.last ≠ s.last → i = .rxOpen) ∧
    ((t.buf ≠ s.buf ∨ t.blen ≠ s.blen) → i = .rxOpen ∨ (∃ b, i = .rxByte b) ∨ i = .scan) ∧
    ((t.out ≠ s.out ∨ t.vcrc ≠ s.vcrc ∨ t.pos ≠ s.pos ∨ t.len ≠ s.len ∨ t.lastEnd ≠ s.lastEnd ∨
      t.f1 ≠ s.f1 ∨ t.acc ≠ s.acc) → i = .scan)

/-- The sequence of published events only grows, over every step, a reset included (R29, R272; what was
published before a reset is in `delivered`, log 8); and the constants are those of the instance for
ever (R30). -/
def Obligations.PublishedSequenceOnlyGrows : Prop :=
  ∀ s t : State, step s = .next t → s.delivered ++ s.out <+: t.delivered ++ t.out ∧ t.cfg = s.cfg

/-- The scan registers are dead between commands (R22, R26, R38): two states that differ in them alone
answer every command the same, up to those registers. -/
def Obligations.ScanRegistersAreUnobservable : Prop :=
  ∀ (i : Instr) (s t : State), forget s = forget t →
    forgetResult (exec i s) = forgetResult (exec i t)

/-- The 3-bit codes of the state register (R220), and the unused codes 6 and 7, which are taken to IDLE
(R224). -/
def Obligations.StateRegisterCodes : Prop :=
  (∀ x : FsmState, FsmState.ofCode x.code = x) ∧
  (FsmState.code .idle = 0 ∧ FsmState.code .hunt = 1 ∧ FsmState.code .check = 2 ∧
    FsmState.code .emit = 3 ∧ FsmState.code .ack = 4 ∧ FsmState.code .prune = 5) ∧
  FsmState.ofCode 6 = .idle ∧ FsmState.ofCode 7 = .idle

/-- The silent conditions (R241; the labels are the spec's, decision D22): the cause of each of X1a to X5
in arithmetic, and its handling by the command that meets it. The gap of X4 is given by its two
properties (R132); the `now` port is read modulo `2^TIME_W` (log 11). X6 is the sink's (log 16). -/
def Obligations.SilentConditionsDriveTheHandling : Prop :=
  -- X1a, X1b, X1c: causes, then handling
  (∀ (s t : State) (b : Byte), bufRead s s.pos = some b → scanHdr s = .next t →
    (.x1a ∈ hdrConditions t ↔ b.toNat + 4 < s.cfg.minFrame) ∧
    (.x1b ∈ hdrConditions t ↔ s.cfg.maxFrame < b.toNat + 4) ∧
    (.x1c ∈ hdrConditions t ↔ s.blen - s.pos < b.toNat + 4)) ∧
  (∀ s : State,
    (.x1a ∈ hdrConditions s ↔ s.len < s.cfg.minFrame) ∧
    (.x1b ∈ hdrConditions s ↔ s.cfg.maxFrame < s.len) ∧
    (.x1c ∈ hdrConditions s ↔ s.blen - s.pos < s.len) ∧
    (lengthOK s = true ↔ hdrConditions s = [])) ∧
  (∀ s t : State, s.st = .hunt → s.pos < s.blen → scanHdr s = .next t → hdrConditions t ≠ [] →
    fsmStep s = .next { t with pos := s.pos + 1 }) ∧
  -- X2
  (∀ s t : State, s.BufOk → s.pos + s.len ≤ s.blen → scanCheck s = .next t →
    (.x2 ∈ checkConditions t ↔ crc16 xmodem ((s.validPart.drop s.pos).take s.len) ≠ 0)) ∧
  (∀ s t : State, s.st = .check → scanCheck s = .next t → checkConditions t ≠ [] →
    fsmStep s = .next { t with pos := s.pos + 1, st := .hunt }) ∧
  -- X3
  (∀ s : State, (.x3 ∈ rxByteConditions s ↔ s.cfg.bufferSize ≤ s.blen) ∧
    (s.blen ≤ s.cfg.bufferSize → (.x3 ∈ rxByteConditions s ↔ s.blen = s.cfg.bufferSize))) ∧
  (∀ (s : State) (b : Byte), rxByteConditions s ≠ [] → exec (.rxByte b) s = .next s) ∧
  -- X4
  (∀ (s : State) (g : Nat), g < 2 ^ s.cfg.timeW →
    (g : Int) ≡ (s.nowIn : Int) - (s.last : Int) [ZMOD ((2 ^ s.cfg.timeW : Nat) : Int)] →
    (.x4 ∈ rxOpenConditions s ↔ s.cfg.readTimeout < g)) ∧
  (∀ s : State, rxOpenConditions s ≠ [] → ∃ t, exec .rxOpen s = .next t ∧ t.blen = 0 ∧
    t.validPart = [] ∧ t.last = s.nowIn % 2 ^ s.cfg.timeW) ∧
  -- X5
  (∀ s : State, .x5 ∈ pruneConditions s ↔ s.acc = false ∧ s.cfg.maxFrame < s.blen) ∧
  (∀ s : State, s.BufOk → pruneConditions s ≠ [] → (scanPrune s).blen = s.cfg.maxFrame ∧
    (scanPrune s).validPart = s.validPart.drop (s.blen - s.cfg.maxFrame))

/-! ### Sequences of commands -/

/-- The checked front door: every sequence that holds a reserved opcode is refused (R89); of the others
exactly those in which each `RX.BYTE` stands in a burst are accepted, unchanged, behind what is already
waiting, and those with a broken burst are refused (R94, U10); the expansion of every pseudo-instruction
is accepted (R92). The front door is the model's own form of these refusals: logs 6 and 16. -/
def Obligations.FrontDoorRefusesReservedAndBrokenBursts : Prop :=
  (∀ (s : State) (before later : List HostInput) (w : CmdWord) (now : Nat), 0x700 ≤ w.toNat →
    submit (before ++ .command w now :: later) s = .refused .reservedOpcodeInSequence) ∧
  (∀ (s : State) (ins : List HostInput), (∀ w now, .command w now ∈ ins → w.toNat < 0x700) →
    (BurstsUnbroken ins → submit ins s = .next { s with pending := s.pending ++ ins }) ∧
    (¬ BurstsUnbroken ins → submit ins s = .refused .burstShapeBroken)) ∧
  (∀ (s : State) (x : Pseudo),
    submit (expand s.cfg x) s = .next { s with pending := s.pending ++ expand s.cfg x })

/-- R92 and R211: a step with bytes is an ingest followed by a scan; a step without bytes is a scan alone,
or, when EMPTY_STEP_OPENS, an `RX.OPEN` and a scan. -/
def Obligations.StepExpansion : Prop :=
  ∀ (c : Config) (now : Nat),
    (∀ b bs, expand c (.step (b :: bs) now) =
      expand c (.ingest (b :: bs) now) ++ [.command 0x600 now]) ∧
    (c.emptyStepOpens = false → expand c (.step [] now) = [.command 0x600 now]) ∧
    (c.emptyStepOpens = true →
      expand c (.step [] now) = expand c (.ingest [] now) ++ [.command 0x600 now])
end

