-- ==== Sys2Proof/Laws/State.lean ====
section
/-! SUPPORT. For each named state update, one lemma per field, and for each small predicate the fields it
reads; so that no proof unfolds a record update. -/

namespace Sys2Proof.Machine

/-! ### appendByte -/

@[simp] theorem appendByte_cfg (b : Byte) (s : State) : (appendByte b s).cfg = s.cfg := rfl
@[simp] theorem appendByte_e (b : Byte) (s : State) : (appendByte b s).e = s.e := rfl
@[simp] theorem appendByte_crc (b : Byte) (s : State) : (appendByte b s).crc = s.crc := rfl
@[simp] theorem appendByte_vcrc (b : Byte) (s : State) : (appendByte b s).vcrc = s.vcrc := rfl
@[simp] theorem appendByte_buf (b : Byte) (s : State) : (appendByte b s).buf = s.buf.write s.blen b := rfl
@[simp] theorem appendByte_blen (b : Byte) (s : State) : (appendByte b s).blen = s.blen + 1 := rfl
@[simp] theorem appendByte_last (b : Byte) (s : State) : (appendByte b s).last = s.last := rfl
@[simp] theorem appendByte_pos (b : Byte) (s : State) : (appendByte b s).pos = s.pos := rfl
@[simp] theorem appendByte_len (b : Byte) (s : State) : (appendByte b s).len = s.len := rfl
@[simp] theorem appendByte_lastEnd (b : Byte) (s : State) : (appendByte b s).lastEnd = s.lastEnd := rfl
@[simp] theorem appendByte_f1 (b : Byte) (s : State) : (appendByte b s).f1 = s.f1 := rfl
@[simp] theorem appendByte_acc (b : Byte) (s : State) : (appendByte b s).acc = s.acc := rfl
@[simp] theorem appendByte_st (b : Byte) (s : State) : (appendByte b s).st = s.st := rfl
@[simp] theorem appendByte_crcOut (b : Byte) (s : State) : (appendByte b s).crcOut = s.crcOut := rfl
@[simp] theorem appendByte_crcOutValid (b : Byte) (s : State) : (appendByte b s).crcOutValid = s.crcOutValid := rfl
@[simp] theorem appendByte_nowIn (b : Byte) (s : State) : (appendByte b s).nowIn = s.nowIn := rfl
@[simp] theorem appendByte_pending (b : Byte) (s : State) : (appendByte b s).pending = s.pending := rfl
@[simp] theorem appendByte_out (b : Byte) (s : State) : (appendByte b s).out = s.out := rfl
@[simp] theorem appendByte_delivered (b : Byte) (s : State) : (appendByte b s).delivered = s.delivered := rfl

/-! ### clearBuffer -/

@[simp] theorem clearBuffer_cfg (s : State) : (clearBuffer s).cfg = s.cfg := rfl
@[simp] theorem clearBuffer_e (s : State) : (clearBuffer s).e = s.e := rfl
@[simp] theorem clearBuffer_crc (s : State) : (clearBuffer s).crc = s.crc := rfl
@[simp] theorem clearBuffer_vcrc (s : State) : (clearBuffer s).vcrc = s.vcrc := rfl
@[simp] theorem clearBuffer_buf (s : State) : (clearBuffer s).buf = [] := rfl
@[simp] theorem clearBuffer_blen (s : State) : (clearBuffer s).blen = 0 := rfl
@[simp] theorem clearBuffer_last (s : State) : (clearBuffer s).last = s.last := rfl
@[simp] theorem clearBuffer_pos (s : State) : (clearBuffer s).pos = s.pos := rfl
@[simp] theorem clearBuffer_len (s : State) : (clearBuffer s).len = s.len := rfl
@[simp] theorem clearBuffer_lastEnd (s : State) : (clearBuffer s).lastEnd = s.lastEnd := rfl
@[simp] theorem clearBuffer_f1 (s : State) : (clearBuffer s).f1 = s.f1 := rfl
@[simp] theorem clearBuffer_acc (s : State) : (clearBuffer s).acc = s.acc := rfl
@[simp] theorem clearBuffer_st (s : State) : (clearBuffer s).st = s.st := rfl
@[simp] theorem clearBuffer_crcOut (s : State) : (clearBuffer s).crcOut = s.crcOut := rfl
@[simp] theorem clearBuffer_crcOutValid (s : State) : (clearBuffer s).crcOutValid = s.crcOutValid := rfl
@[simp] theorem clearBuffer_nowIn (s : State) : (clearBuffer s).nowIn = s.nowIn := rfl
@[simp] theorem clearBuffer_pending (s : State) : (clearBuffer s).pending = s.pending := rfl
@[simp] theorem clearBuffer_out (s : State) : (clearBuffer s).out = s.out := rfl
@[simp] theorem clearBuffer_delivered (s : State) : (clearBuffer s).delivered = s.delivered := rfl

/-! ### pruneTo -/

@[simp] theorem pruneTo_cfg (k : Nat) (s : State) : (pruneTo k s).cfg = s.cfg := rfl
@[simp] theorem pruneTo_e (k : Nat) (s : State) : (pruneTo k s).e = s.e := rfl
@[simp] theorem pruneTo_crc (k : Nat) (s : State) : (pruneTo k s).crc = s.crc := rfl
@[simp] theorem pruneTo_vcrc (k : Nat) (s : State) : (pruneTo k s).vcrc = s.vcrc := rfl
@[simp] theorem pruneTo_buf (k : Nat) (s : State) : (pruneTo k s).buf = s.buf.cut k s.blen := rfl
@[simp] theorem pruneTo_blen (k : Nat) (s : State) : (pruneTo k s).blen = s.blen - k := rfl
@[simp] theorem pruneTo_last (k : Nat) (s : State) : (pruneTo k s).last = s.last := rfl
@[simp] theorem pruneTo_pos (k : Nat) (s : State) : (pruneTo k s).pos = s.pos := rfl
@[simp] theorem pruneTo_len (k : Nat) (s : State) : (pruneTo k s).len = s.len := rfl
@[simp] theorem pruneTo_lastEnd (k : Nat) (s : State) : (pruneTo k s).lastEnd = s.lastEnd := rfl
@[simp] theorem pruneTo_f1 (k : Nat) (s : State) : (pruneTo k s).f1 = s.f1 := rfl
@[simp] theorem pruneTo_acc (k : Nat) (s : State) : (pruneTo k s).acc = s.acc := rfl
@[simp] theorem pruneTo_st (k : Nat) (s : State) : (pruneTo k s).st = s.st := rfl
@[simp] theorem pruneTo_crcOut (k : Nat) (s : State) : (pruneTo k s).crcOut = s.crcOut := rfl
@[simp] theorem pruneTo_crcOutValid (k : Nat) (s : State) : (pruneTo k s).crcOutValid = s.crcOutValid := rfl
@[simp] theorem pruneTo_nowIn (k : Nat) (s : State) : (pruneTo k s).nowIn = s.nowIn := rfl
@[simp] theorem pruneTo_pending (k : Nat) (s : State) : (pruneTo k s).pending = s.pending := rfl
@[simp] theorem pruneTo_out (k : Nat) (s : State) : (pruneTo k s).out = s.out := rfl
@[simp] theorem pruneTo_delivered (k : Nat) (s : State) : (pruneTo k s).delivered = s.delivered := rfl

/-! ### publish -/

@[simp] theorem publish_cfg (ev : PubEvent) (s : State) : (publish ev s).cfg = s.cfg := rfl
@[simp] theorem publish_e (ev : PubEvent) (s : State) : (publish ev s).e = s.e := rfl
@[simp] theorem publish_crc (ev : PubEvent) (s : State) : (publish ev s).crc = s.crc := rfl
@[simp] theorem publish_vcrc (ev : PubEvent) (s : State) : (publish ev s).vcrc = s.vcrc := rfl
@[simp] theorem publish_buf (ev : PubEvent) (s : State) : (publish ev s).buf = s.buf := rfl
@[simp] theorem publish_blen (ev : PubEvent) (s : State) : (publish ev s).blen = s.blen := rfl
@[simp] theorem publish_last (ev : PubEvent) (s : State) : (publish ev s).last = s.last := rfl
@[simp] theorem publish_pos (ev : PubEvent) (s : State) : (publish ev s).pos = s.pos := rfl
@[simp] theorem publish_len (ev : PubEvent) (s : State) : (publish ev s).len = s.len := rfl
@[simp] theorem publish_lastEnd (ev : PubEvent) (s : State) : (publish ev s).lastEnd = s.lastEnd := rfl
@[simp] theorem publish_f1 (ev : PubEvent) (s : State) : (publish ev s).f1 = s.f1 := rfl
@[simp] theorem publish_acc (ev : PubEvent) (s : State) : (publish ev s).acc = s.acc := rfl
@[simp] theorem publish_st (ev : PubEvent) (s : State) : (publish ev s).st = s.st := rfl
@[simp] theorem publish_crcOut (ev : PubEvent) (s : State) : (publish ev s).crcOut = s.crcOut := rfl
@[simp] theorem publish_crcOutValid (ev : PubEvent) (s : State) : (publish ev s).crcOutValid = s.crcOutValid := rfl
@[simp] theorem publish_nowIn (ev : PubEvent) (s : State) : (publish ev s).nowIn = s.nowIn := rfl
@[simp] theorem publish_pending (ev : PubEvent) (s : State) : (publish ev s).pending = s.pending := rfl
@[simp] theorem publish_out (ev : PubEvent) (s : State) : (publish ev s).out = s.out ++ [ev] := rfl
@[simp] theorem publish_delivered (ev : PubEvent) (s : State) : (publish ev s).delivered = s.delivered := rfl

/-! ### startPass -/

@[simp] theorem startPass_cfg (s : State) : (startPass s).cfg = s.cfg := rfl
@[simp] theorem startPass_e (s : State) : (startPass s).e = s.e := rfl
@[simp] theorem startPass_crc (s : State) : (startPass s).crc = s.crc := rfl
@[simp] theorem startPass_vcrc (s : State) : (startPass s).vcrc = s.vcrc := rfl
@[simp] theorem startPass_buf (s : State) : (startPass s).buf = s.buf := rfl
@[simp] theorem startPass_blen (s : State) : (startPass s).blen = s.blen := rfl
@[simp] theorem startPass_last (s : State) : (startPass s).last = s.last := rfl
@[simp] theorem startPass_pos (s : State) : (startPass s).pos = 0 := rfl
@[simp] theorem startPass_len (s : State) : (startPass s).len = s.len := rfl
@[simp] theorem startPass_lastEnd (s : State) : (startPass s).lastEnd = 0 := rfl
@[simp] theorem startPass_f1 (s : State) : (startPass s).f1 = s.f1 := rfl
@[simp] theorem startPass_acc (s : State) : (startPass s).acc = false := rfl
@[simp] theorem startPass_st (s : State) : (startPass s).st = s.st := rfl
@[simp] theorem startPass_crcOut (s : State) : (startPass s).crcOut = s.crcOut := rfl
@[simp] theorem startPass_crcOutValid (s : State) : (startPass s).crcOutValid = s.crcOutValid := rfl
@[simp] theorem startPass_nowIn (s : State) : (startPass s).nowIn = s.nowIn := rfl
@[simp] theorem startPass_pending (s : State) : (startPass s).pending = s.pending := rfl
@[simp] theorem startPass_out (s : State) : (startPass s).out = s.out := rfl
@[simp] theorem startPass_delivered (s : State) : (startPass s).delivered = s.delivered := rfl

/-! ### reject -/

@[simp] theorem reject_cfg (s : State) : (reject s).cfg = s.cfg := rfl
@[simp] theorem reject_e (s : State) : (reject s).e = s.e := rfl
@[simp] theorem reject_crc (s : State) : (reject s).crc = s.crc := rfl
@[simp] theorem reject_vcrc (s : State) : (reject s).vcrc = s.vcrc := rfl
@[simp] theorem reject_buf (s : State) : (reject s).buf = s.buf := rfl
@[simp] theorem reject_blen (s : State) : (reject s).blen = s.blen := rfl
@[simp] theorem reject_last (s : State) : (reject s).last = s.last := rfl
@[simp] theorem reject_pos (s : State) : (reject s).pos = s.pos + 1 := rfl
@[simp] theorem reject_len (s : State) : (reject s).len = s.len := rfl
@[simp] theorem reject_lastEnd (s : State) : (reject s).lastEnd = s.lastEnd := rfl
@[simp] theorem reject_f1 (s : State) : (reject s).f1 = s.f1 := rfl
@[simp] theorem reject_acc (s : State) : (reject s).acc = s.acc := rfl
@[simp] theorem reject_st (s : State) : (reject s).st = s.st := rfl
@[simp] theorem reject_crcOut (s : State) : (reject s).crcOut = s.crcOut := rfl
@[simp] theorem reject_crcOutValid (s : State) : (reject s).crcOutValid = s.crcOutValid := rfl
@[simp] theorem reject_nowIn (s : State) : (reject s).nowIn = s.nowIn := rfl
@[simp] theorem reject_pending (s : State) : (reject s).pending = s.pending := rfl
@[simp] theorem reject_out (s : State) : (reject s).out = s.out := rfl
@[simp] theorem reject_delivered (s : State) : (reject s).delivered = s.delivered := rfl

/-! ### beginScan -/

@[simp] theorem beginScan_cfg (s : State) : (beginScan s).cfg = s.cfg := rfl
@[simp] theorem beginScan_e (s : State) : (beginScan s).e = s.e := rfl
@[simp] theorem beginScan_crc (s : State) : (beginScan s).crc = s.crc := rfl
@[simp] theorem beginScan_vcrc (s : State) : (beginScan s).vcrc = s.vcrc := rfl
@[simp] theorem beginScan_buf (s : State) : (beginScan s).buf = s.buf := rfl
@[simp] theorem beginScan_blen (s : State) : (beginScan s).blen = s.blen := rfl
@[simp] theorem beginScan_last (s : State) : (beginScan s).last = s.last := rfl
@[simp] theorem beginScan_pos (s : State) : (beginScan s).pos = 0 := rfl
@[simp] theorem beginScan_len (s : State) : (beginScan s).len = s.len := rfl
@[simp] theorem beginScan_lastEnd (s : State) : (beginScan s).lastEnd = 0 := rfl
@[simp] theorem beginScan_f1 (s : State) : (beginScan s).f1 = s.f1 := rfl
@[simp] theorem beginScan_acc (s : State) : (beginScan s).acc = false := rfl
@[simp] theorem beginScan_st (s : State) : (beginScan s).st = .hunt := rfl
@[simp] theorem beginScan_crcOut (s : State) : (beginScan s).crcOut = s.crcOut := rfl
@[simp] theorem beginScan_crcOutValid (s : State) : (beginScan s).crcOutValid = s.crcOutValid := rfl
@[simp] theorem beginScan_nowIn (s : State) : (beginScan s).nowIn = s.nowIn := rfl
@[simp] theorem beginScan_pending (s : State) : (beginScan s).pending = s.pending := rfl
@[simp] theorem beginScan_out (s : State) : (beginScan s).out = s.out := rfl
@[simp] theorem beginScan_delivered (s : State) : (beginScan s).delivered = s.delivered := rfl

/-! ### endPulse -/

@[simp] theorem endPulse_cfg (s : State) : (endPulse s).cfg = s.cfg := rfl
@[simp] theorem endPulse_e (s : State) : (endPulse s).e = s.e := rfl
@[simp] theorem endPulse_crc (s : State) : (endPulse s).crc = s.crc := rfl
@[simp] theorem endPulse_vcrc (s : State) : (endPulse s).vcrc = s.vcrc := rfl
@[simp] theorem endPulse_buf (s : State) : (endPulse s).buf = s.buf := rfl
@[simp] theorem endPulse_blen (s : State) : (endPulse s).blen = s.blen := rfl
@[simp] theorem endPulse_last (s : State) : (endPulse s).last = s.last := rfl
@[simp] theorem endPulse_pos (s : State) : (endPulse s).pos = s.pos := rfl
@[simp] theorem endPulse_len (s : State) : (endPulse s).len = s.len := rfl
@[simp] theorem endPulse_lastEnd (s : State) : (endPulse s).lastEnd = s.lastEnd := rfl
@[simp] theorem endPulse_f1 (s : State) : (endPulse s).f1 = s.f1 := rfl
@[simp] theorem endPulse_acc (s : State) : (endPulse s).acc = s.acc := rfl
@[simp] theorem endPulse_st (s : State) : (endPulse s).st = s.st := rfl
@[simp] theorem endPulse_crcOut (s : State) : (endPulse s).crcOut = s.crcOut := rfl
@[simp] theorem endPulse_crcOutValid (s : State) : (endPulse s).crcOutValid = false := rfl
@[simp] theorem endPulse_nowIn (s : State) : (endPulse s).nowIn = s.nowIn := rfl
@[simp] theorem endPulse_pending (s : State) : (endPulse s).pending = s.pending := rfl
@[simp] theorem endPulse_out (s : State) : (endPulse s).out = s.out := rfl
@[simp] theorem endPulse_delivered (s : State) : (endPulse s).delivered = s.delivered := rfl

/-! ### acceptCommand -/

@[simp] theorem acceptCommand_cfg (now : Nat) (rest : List HostInput) (s : State) : (acceptCommand now rest s).cfg = s.cfg := rfl
@[simp] theorem acceptCommand_e (now : Nat) (rest : List HostInput) (s : State) : (acceptCommand now rest s).e = s.e := rfl
@[simp] theorem acceptCommand_crc (now : Nat) (rest : List HostInput) (s : State) : (acceptCommand now rest s).crc = s.crc := rfl
@[simp] theorem acceptCommand_vcrc (now : Nat) (rest : List HostInput) (s : State) : (acceptCommand now rest s).vcrc = s.vcrc := rfl
@[simp] theorem acceptCommand_buf (now : Nat) (rest : List HostInput) (s : State) : (acceptCommand now rest s).buf = s.buf := rfl
@[simp] theorem acceptCommand_blen (now : Nat) (rest : List HostInput) (s : State) : (acceptCommand now rest s).blen = s.blen := rfl
@[simp] theorem acceptCommand_last (now : Nat) (rest : List HostInput) (s : State) : (acceptCommand now rest s).last = s.last := rfl
@[simp] theorem acceptCommand_pos (now : Nat) (rest : List HostInput) (s : State) : (acceptCommand now rest s).pos = s.pos := rfl
@[simp] theorem acceptCommand_len (now : Nat) (rest : List HostInput) (s : State) : (acceptCommand now rest s).len = s.len := rfl
@[simp] theorem acceptCommand_lastEnd (now : Nat) (rest : List HostInput) (s : State) : (acceptCommand now rest s).lastEnd = s.lastEnd := rfl
@[simp] theorem acceptCommand_f1 (now : Nat) (rest : List HostInput) (s : State) : (acceptCommand now rest s).f1 = s.f1 := rfl
@[simp] theorem acceptCommand_acc (now : Nat) (rest : List HostInput) (s : State) : (acceptCommand now rest s).acc = s.acc := rfl
@[simp] theorem acceptCommand_st (now : Nat) (rest : List HostInput) (s : State) : (acceptCommand now rest s).st = s.st := rfl
@[simp] theorem acceptCommand_crcOut (now : Nat) (rest : List HostInput) (s : State) : (acceptCommand now rest s).crcOut = s.crcOut := rfl
@[simp] theorem acceptCommand_crcOutValid (now : Nat) (rest : List HostInput) (s : State) : (acceptCommand now rest s).crcOutValid = false := rfl
@[simp] theorem acceptCommand_nowIn (now : Nat) (rest : List HostInput) (s : State) : (acceptCommand now rest s).nowIn = now := rfl
@[simp] theorem acceptCommand_pending (now : Nat) (rest : List HostInput) (s : State) : (acceptCommand now rest s).pending = rest := rfl
@[simp] theorem acceptCommand_out (now : Nat) (rest : List HostInput) (s : State) : (acceptCommand now rest s).out = s.out := rfl
@[simp] theorem acceptCommand_delivered (now : Nat) (rest : List HostInput) (s : State) : (acceptCommand now rest s).delivered = s.delivered := rfl

/-! ### presentWord -/

@[simp] theorem presentWord_cfg (w : CmdWord) (s : State) : (presentWord w s).cfg = s.cfg := rfl
@[simp] theorem presentWord_e (w : CmdWord) (s : State) : (presentWord w s).e = s.e := rfl
@[simp] theorem presentWord_crc (w : CmdWord) (s : State) : (presentWord w s).crc = s.crc := rfl
@[simp] theorem presentWord_vcrc (w : CmdWord) (s : State) : (presentWord w s).vcrc = s.vcrc := rfl
@[simp] theorem presentWord_buf (w : CmdWord) (s : State) : (presentWord w s).buf = s.buf := rfl
@[simp] theorem presentWord_blen (w : CmdWord) (s : State) : (presentWord w s).blen = s.blen := rfl
@[simp] theorem presentWord_last (w : CmdWord) (s : State) : (presentWord w s).last = s.last := rfl
@[simp] theorem presentWord_pos (w : CmdWord) (s : State) : (presentWord w s).pos = s.pos := rfl
@[simp] theorem presentWord_len (w : CmdWord) (s : State) : (presentWord w s).len = s.len := rfl
@[simp] theorem presentWord_lastEnd (w : CmdWord) (s : State) : (presentWord w s).lastEnd = s.lastEnd := rfl
@[simp] theorem presentWord_f1 (w : CmdWord) (s : State) : (presentWord w s).f1 = s.f1 := rfl
@[simp] theorem presentWord_acc (w : CmdWord) (s : State) : (presentWord w s).acc = s.acc := rfl
@[simp] theorem presentWord_st (w : CmdWord) (s : State) : (presentWord w s).st = .idle := rfl
@[simp] theorem presentWord_crcOut (w : CmdWord) (s : State) : (presentWord w s).crcOut = s.crcOut := rfl
@[simp] theorem presentWord_crcOutValid (w : CmdWord) (s : State) : (presentWord w s).crcOutValid = s.crcOutValid := rfl
@[simp] theorem presentWord_nowIn (w : CmdWord) (s : State) : (presentWord w s).nowIn = s.nowIn := rfl
@[simp] theorem presentWord_pending (w : CmdWord) (s : State) : (presentWord w s).pending = .command w s.nowIn :: s.pending := rfl
@[simp] theorem presentWord_out (w : CmdWord) (s : State) : (presentWord w s).out = s.out := rfl
@[simp] theorem presentWord_delivered (w : CmdWord) (s : State) : (presentWord w s).delivered = s.delivered := rfl

/-! ### acceptReset -/

@[simp] theorem acceptReset_cfg (p : CrcParams) (rest : List HostInput) (s : State) : (acceptReset p rest s).cfg = s.cfg := rfl
@[simp] theorem acceptReset_e (p : CrcParams) (rest : List HostInput) (s : State) : (acceptReset p rest s).e = p := rfl
@[simp] theorem acceptReset_crc (p : CrcParams) (rest : List HostInput) (s : State) : (acceptReset p rest s).crc = p.init := rfl
@[simp] theorem acceptReset_vcrc (p : CrcParams) (rest : List HostInput) (s : State) : (acceptReset p rest s).vcrc = 0 := rfl
@[simp] theorem acceptReset_buf (p : CrcParams) (rest : List HostInput) (s : State) : (acceptReset p rest s).buf = [] := rfl
@[simp] theorem acceptReset_blen (p : CrcParams) (rest : List HostInput) (s : State) : (acceptReset p rest s).blen = 0 := rfl
@[simp] theorem acceptReset_last (p : CrcParams) (rest : List HostInput) (s : State) : (acceptReset p rest s).last = 0 := rfl
@[simp] theorem acceptReset_pos (p : CrcParams) (rest : List HostInput) (s : State) : (acceptReset p rest s).pos = 0 := rfl
@[simp] theorem acceptReset_len (p : CrcParams) (rest : List HostInput) (s : State) : (acceptReset p rest s).len = 0 := rfl
@[simp] theorem acceptReset_lastEnd (p : CrcParams) (rest : List HostInput) (s : State) : (acceptReset p rest s).lastEnd = 0 := rfl
@[simp] theorem acceptReset_f1 (p : CrcParams) (rest : List HostInput) (s : State) : (acceptReset p rest s).f1 = 0 := rfl
@[simp] theorem acceptReset_acc (p : CrcParams) (rest : List HostInput) (s : State) : (acceptReset p rest s).acc = false := rfl
@[simp] theorem acceptReset_st (p : CrcParams) (rest : List HostInput) (s : State) : (acceptReset p rest s).st = .idle := rfl
@[simp] theorem acceptReset_crcOut (p : CrcParams) (rest : List HostInput) (s : State) : (acceptReset p rest s).crcOut = 0 := rfl
@[simp] theorem acceptReset_crcOutValid (p : CrcParams) (rest : List HostInput) (s : State) : (acceptReset p rest s).crcOutValid = false := rfl
@[simp] theorem acceptReset_nowIn (p : CrcParams) (rest : List HostInput) (s : State) : (acceptReset p rest s).nowIn = s.nowIn := rfl
@[simp] theorem acceptReset_pending (p : CrcParams) (rest : List HostInput) (s : State) : (acceptReset p rest s).pending = rest := rfl
@[simp] theorem acceptReset_out (p : CrcParams) (rest : List HostInput) (s : State) : (acceptReset p rest s).out = [] := rfl
@[simp] theorem acceptReset_delivered (p : CrcParams) (rest : List HostInput) (s : State) : (acceptReset p rest s).delivered = s.delivered ++ s.out := rfl

/-! ### resetWith -/

@[simp] theorem resetWith_cfg (c : Config) (p : CrcParams) : (State.resetWith c p).cfg = c := rfl
@[simp] theorem resetWith_e (c : Config) (p : CrcParams) : (State.resetWith c p).e = p := rfl
@[simp] theorem resetWith_crc (c : Config) (p : CrcParams) : (State.resetWith c p).crc = p.init := rfl
@[simp] theorem resetWith_vcrc (c : Config) (p : CrcParams) : (State.resetWith c p).vcrc = 0 := rfl
@[simp] theorem resetWith_buf (c : Config) (p : CrcParams) : (State.resetWith c p).buf = [] := rfl
@[simp] theorem resetWith_blen (c : Config) (p : CrcParams) : (State.resetWith c p).blen = 0 := rfl
@[simp] theorem resetWith_last (c : Config) (p : CrcParams) : (State.resetWith c p).last = 0 := rfl
@[simp] theorem resetWith_pos (c : Config) (p : CrcParams) : (State.resetWith c p).pos = 0 := rfl
@[simp] theorem resetWith_len (c : Config) (p : CrcParams) : (State.resetWith c p).len = 0 := rfl
@[simp] theorem resetWith_lastEnd (c : Config) (p : CrcParams) : (State.resetWith c p).lastEnd = 0 := rfl
@[simp] theorem resetWith_f1 (c : Config) (p : CrcParams) : (State.resetWith c p).f1 = 0 := rfl
@[simp] theorem resetWith_acc (c : Config) (p : CrcParams) : (State.resetWith c p).acc = false := rfl
@[simp] theorem resetWith_st (c : Config) (p : CrcParams) : (State.resetWith c p).st = .idle := rfl
@[simp] theorem resetWith_crcOut (c : Config) (p : CrcParams) : (State.resetWith c p).crcOut = 0 := rfl
@[simp] theorem resetWith_crcOutValid (c : Config) (p : CrcParams) : (State.resetWith c p).crcOutValid = false := rfl
@[simp] theorem resetWith_nowIn (c : Config) (p : CrcParams) : (State.resetWith c p).nowIn = 0 := rfl
@[simp] theorem resetWith_pending (c : Config) (p : CrcParams) : (State.resetWith c p).pending = [] := rfl
@[simp] theorem resetWith_out (c : Config) (p : CrcParams) : (State.resetWith c p).out = [] := rfl
@[simp] theorem resetWith_delivered (c : Config) (p : CrcParams) : (State.resetWith c p).delivered = [] := rfl

/-! ### andThen -/

@[simp] theorem andThen_next (s : State) (f : State → Result) : andThen (.next s) f = f s := rfl
@[simp] theorem andThen_fault (r : Fault) (f : State → Result) : andThen (.fault r) f = .fault r := rfl
@[simp] theorem andThen_refused (r : Refusal) (f : State → Result) :
    andThen (.refused r) f = .refused r := rfl

/-- A chain that answers a next state went through one. -/
theorem andThen_eq_next {o : Result} {f : State → Result} {t : State} (h : andThen o f = .next t) :
    ∃ m, o = .next m ∧ f m = .next t := by
  cases o with
  | next m => exact ⟨m, rfl, h⟩
  | fault r => cases h
  | refused r => cases h

theorem andThen_assoc (o : Result) (f g : State → Result) :
    andThen (andThen o f) g = andThen o (fun s => andThen (f s) g) := by
  cases o <;> rfl

/-- Equal states are equal field by field. -/
theorem next_inj {s t : State} (h : (Host.Outcome.next s : Result) = .next t) : s = t := by
  cases h; rfl

/-! ### cmd_ready -/

@[simp] theorem cmdReady_eq_true (s : State) : s.cmdReady = true ↔ s.st = .idle := by
  simp [State.cmdReady]

@[simp] theorem cmdReady_eq_false (s : State) : s.cmdReady = false ↔ s.st ≠ .idle := by
  simp [State.cmdReady]

end Sys2Proof.Machine
end

