-- ==== Sys2Proof/Laws/Crc.lean ====
section
/-! SUPPORT. The CRC engine's functions (spec/40_crc_engine.md): how shift steps and byte sequences
compose, and what a shift step does to the parts of a register. -/

namespace Sys2Proof.Machine

theorem lfsrSteps_add (p : CrcParams) (m n : Nat) (r : CrcWord) :
    lfsrSteps p (m + n) r = lfsrSteps p n (lfsrSteps p m r) := by
  induction m generalizing r with
  | zero => simp [lfsrSteps]
  | succ m ih => rw [Nat.succ_add]; exact ih _

theorem crcFeed_append (p : CrcParams) (r : CrcWord) (a b : List Byte) :
    crcFeed p r (a ++ b) = crcFeed p (crcFeed p r a) b := by
  simp [crcFeed, List.foldl_append]

@[simp] theorem crcFeed_nil (p : CrcParams) (r : CrcWord) : crcFeed p r [] = r := rfl

@[simp] theorem crcFeed_cons (p : CrcParams) (r : CrcWord) (b : Byte) (bs : List Byte) :
    crcFeed p r (b :: bs) = crcFeed p (crcAddByte p r b) bs := rfl

/-- The shift step of a register whose top bit is clear. -/
theorem lfsr1_of_msb_false {p : CrcParams} {r : CrcWord} (h : r.msb = false) : lfsr1 p r = r <<< 1 := by
  simp [lfsr1, topBit, h]

/-- The shift step of a register whose top bit is set. -/
theorem lfsr1_of_msb_true {p : CrcParams} {r : CrcWord} (h : r.msb = true) :
    lfsr1 p r = (r <<< 1) ^^^ p.poly := by
  simp [lfsr1, topBit, h]

/-- The shift step reads the polynomial alone. -/
theorem lfsr1_congr {p q : CrcParams} (h : p.poly = q.poly) (r : CrcWord) : lfsr1 p r = lfsr1 q r := by
  simp [lfsr1, h]

theorem lfsrSteps_congr {p q : CrcParams} (h : p.poly = q.poly) (n : Nat) (r : CrcWord) :
    lfsrSteps p n r = lfsrSteps q n r := by
  induction n generalizing r with
  | zero => rfl
  | succ n ih => simp only [lfsrSteps, lfsr1_congr h, ih]

/-- Engine V returns its register as it is (spec/42_frame_scanner.md R155). -/
@[simp] theorem crcResult_xmodem (r : CrcWord) : crcResult xmodem r = r := by
  simp [crcResult, xmodem]

/-- The placement of the byte is linear. -/
theorem highByte_xor (b d : Byte) : highByte (b ^^^ d) = highByte b ^^^ highByte d := by
  simp [highByte, BitVec.setWidth_xor, BitVec.shiftLeft_xor_distrib]

theorem highByte_toNat (d : Byte) : (highByte d).toNat = 256 * d.toNat := by
  have := d.isLt
  simp only [highByte, BitVec.toNat_shiftLeft, BitVec.toNat_setWidth, Nat.shiftLeft_eq]
  omega

end Sys2Proof.Machine
end

