-- ==== Sys2Proof/Laws/Memory.lean ====
section
/-! SUPPORT. The frame buffer as memory: reads after writes, the canonical form, and the reads of the
state (spec/20_memory.md R51, R52, R68). -/

namespace Sys2Proof.Machine

/-! ### Cells -/

theorem Memory.read_write (m : Memory) (i j : Nat) (v : Byte) :
    (m.write i v).read j = if j = i then some v else m.read j := by
  have flip : ∀ w : Option Byte, (if i = j then some v else w) = if j = i then some v else w := by
    intro w; by_cases h : i = j
    · simp [h]
    · simp [h, Ne.symm h]
  induction m with
  | nil => simpa [Memory.write, Memory.read] using flip none
  | cons c m ih =>
    obtain ⟨k, b⟩ := c
    rcases Nat.lt_trichotomy i k with h | h | h
    · simpa [Memory.write, h, Memory.read] using flip _
    · subst h
      by_cases hj : i = j
      · simp [Memory.write, Memory.read, hj]
      · simp [Memory.write, Memory.read, hj, Ne.symm hj]
    · rw [Memory.write, if_neg (by omega), if_neg (by omega), Memory.read, ih, Memory.read]
      by_cases hk : k = j
      · rw [if_pos hk, if_pos hk, if_neg (by omega)]
      · rw [if_neg hk, if_neg hk]

theorem Memory.read_eq_none {m : Memory} {i : Nat} (h : i ∉ m.map Prod.fst) : m.read i = none := by
  induction m with
  | nil => rfl
  | cons c m ih =>
    obtain ⟨k, b⟩ := c
    simp only [List.map_cons, List.mem_cons, not_or] at h
    simp [Memory.read, Ne.symm h.1, ih h.2]

theorem Memory.read_isSome {m : Memory} {i : Nat} (h : i ∈ m.map Prod.fst) :
    ∃ b, m.read i = some b := by
  induction m with
  | nil => simp at h
  | cons c m ih =>
    obtain ⟨k, b⟩ := c
    by_cases hk : k = i
    · exact ⟨b, by simp [Memory.read, hk]⟩
    · simp only [List.map_cons, List.mem_cons, Ne.symm hk, false_or] at h
      simpa [Memory.read, hk] using ih h

/-- Writing keeps the canonical form. -/
theorem Memory.wf_write {m : Memory} (h : m.wf) (i : Nat) (v : Byte) : (m.write i v).wf := by
  induction m with
  | nil => simp [Memory.write, Memory.wf]
  | cons c m ih =>
    obtain ⟨k, b⟩ := c
    have hc := List.pairwise_cons.1 h
    simp only [Memory.write]
    split_ifs with h1 h2
    · refine List.pairwise_cons.2 ⟨?_, h⟩
      intro d hd
      rcases List.mem_cons.1 hd with rfl | hd
      · exact h1
      · have := hc.1 d hd; dsimp at this ⊢; omega
    · subst h2
      exact List.pairwise_cons.2 ⟨fun d hd => hc.1 d hd, hc.2⟩
    · refine List.pairwise_cons.2 ⟨?_, ih hc.2⟩
      have hmem : ∀ (m : Memory) (d : Host.Cell), d ∈ m.write i v → d = (i, v) ∨ d ∈ m := by
        intro m
        induction m with
        | nil => intro d hd; simpa [Memory.write] using hd
        | cons c m ihm =>
          obtain ⟨k', b'⟩ := c
          intro d hd
          simp only [Memory.write] at hd
          split_ifs at hd with g1 g2
          · simpa using hd
          · rcases List.mem_cons.1 hd with rfl | hd
            · exact .inl rfl
            · exact .inr (List.mem_cons_of_mem _ hd)
          · rcases List.mem_cons.1 hd with rfl | hd
            · exact .inr List.mem_cons_self
            · exact (ihm d hd).imp id (List.mem_cons_of_mem _)
      intro d hd
      rcases hmem m d hd with rfl | hd
      · dsimp; omega
      · exact hc.1 d hd

/-- The prune keeps the canonical form. -/
theorem Memory.wf_cut {m : Memory} (h : m.wf) (k n : Nat) : (m.cut k n).wf := by
  refine List.pairwise_map.2 ?_
  refine List.Pairwise.imp_of_mem ?_ (h.filter _)
  intro a b ha hb hab
  have h1 := (List.mem_filter.1 ha).2
  simp only [Bool.and_eq_true, decide_eq_true_eq] at h1
  dsimp; omega

theorem Memory.read_cut (m : Memory) (k n i : Nat) :
    (m.cut k n).read i = if i + k < n then m.read (i + k) else none := by
  induction m with
  | nil => simp [Memory.cut, Memory.read]
  | cons c m ih =>
    obtain ⟨j, b⟩ := c
    simp only [Memory.cut] at ih ⊢
    by_cases hj : k ≤ j ∧ j < n
    · rw [List.filter_cons_of_pos (by simpa using hj)]
      simp only [List.map_cons, Memory.read, ih]
      by_cases hi : j = i + k
      · subst hi; simp [hj.2]
      · rw [if_neg (by omega), if_neg hi]
    · rw [List.filter_cons_of_neg (by simpa using hj), ih]
      by_cases hi : i + k < n
      · rw [if_pos hi, if_pos hi, Memory.read, if_neg (by omega)]
      · simp [hi]

/-- Appending at the end of a gapless buffer. -/
theorem Memory.map_fst_write_end {m : Memory} {n : Nat} (h : m.map Prod.fst = List.range n) (v : Byte) :
    m.write n v = m ++ [(n, v)] := by
  have hlt : ∀ c ∈ m, c.1 < n := by
    intro c hc
    have : c.1 ∈ m.map Prod.fst := List.mem_map_of_mem hc
    rw [h] at this; exact List.mem_range.1 this
  clear h
  induction m with
  | nil => rfl
  | cons c m ih =>
    obtain ⟨k, b⟩ := c
    have hk : k < n := hlt _ List.mem_cons_self
    rw [Memory.write, if_neg (by omega), if_neg (by omega),
      ih (fun c hc => hlt c (List.mem_cons_of_mem _ hc))]
    rfl

/-! ### The buffer of a state -/

/-- A gapless buffer is in canonical form. -/
theorem State.BufOk.wf {s : State} (h : s.BufOk) : s.buf.wf := by
  have : (s.buf.map Prod.fst).Pairwise (· < ·) := by rw [h]; exact List.pairwise_lt_range
  exact List.pairwise_map.1 this

/-- Below `blen` every cell holds a value. -/
theorem State.BufOk.bufRead_some {s : State} (h : s.BufOk) {i : Nat} (hi : i < s.blen) :
    ∃ b, bufRead s i = some b := by
  have : i ∈ s.buf.map Prod.fst := by rw [h]; exact List.mem_range.2 hi
  simpa [bufRead, hi] using Memory.read_isSome this

theorem bufRead_of_le {s : State} {i : Nat} (h : s.blen ≤ i) : bufRead s i = none := by
  simp [bufRead, Nat.not_lt.2 h]

theorem bufRead_lt {s : State} {i : Nat} {b : Byte} (h : bufRead s i = some b) : i < s.blen := by
  by_contra hc
  simp [bufRead, hc] at h

/-- A read depends on the buffer and its length alone. -/
theorem bufRead_congr {s t : State} (hb : s.buf = t.buf) (hl : s.blen = t.blen) (i : Nat) :
    bufRead s i = bufRead t i := by simp [bufRead, hb, hl]

theorem memReadFrom_congr {s t : State} (hb : s.buf = t.buf) (hl : s.blen = t.blen) (n i : Nat) :
    memReadFrom s i n = memReadFrom t i n := by
  induction n generalizing i with
  | zero => rfl
  | succ n ih => simp only [memReadFrom, bufRead_congr hb hl, ih]

theorem memRead_congr {s t : State} (hb : s.buf = t.buf) (hl : s.blen = t.blen) (i n : Nat) :
    memRead s i n = memRead t i n := by
  simp only [memRead, hl, memReadFrom_congr hb hl]

/-- The append keeps the buffer gapless. -/
theorem bufOk_appendByte {s : State} (h : s.BufOk) (b : Byte) : (appendByte b s).BufOk := by
  simp only [State.BufOk, appendByte_buf, appendByte_blen, Memory.map_fst_write_end h, List.map_append,
    List.range_succ]
  rw [h]; rfl

/-- The clear keeps the buffer gapless. -/
theorem bufOk_clearBuffer (s : State) : (clearBuffer s).BufOk := rfl

/-- The prune keeps the buffer gapless. -/
theorem bufOk_pruneTo {s : State} (h : s.BufOk) (k : Nat) : (pruneTo k s).BufOk := by
  have key : (pruneTo k s).buf.map Prod.fst
      = ((s.buf.map Prod.fst).filter (fun i => k ≤ i && i < s.blen)).map (fun i => i - k) := by
    simp [Memory.cut, List.filter_map, Function.comp_def]
  rw [State.BufOk, key, h, pruneTo_blen]
  refine List.ext_getElem? fun i => ?_
  generalize hn : s.blen = n
  have : (List.range n).filter (fun i => k ≤ i && i < n) = List.range' k (n - k) := by
    refine List.Perm.eq_of_pairwise (le := (· < ·)) (fun a b _ _ h1 h2 => absurd h1 (Nat.lt_asymm h2))
      ((List.pairwise_lt_range).filter _) (List.pairwise_lt_range') ?_
    refine (List.perm_ext_iff_of_nodup (List.nodup_range.filter _) List.nodup_range').2 fun a => ?_
    simp only [List.mem_filter, List.mem_range, Bool.and_eq_true, decide_eq_true_eq, List.mem_range'_1]
    omega
  rw [this]
  by_cases hi : i < n - k
  · simp [hi]
  · simp [hi]

/-- Reading after the append. -/
theorem bufRead_appendByte (b : Byte) (s : State) (i : Nat) :
    bufRead (appendByte b s) i = if i = s.blen then some b else bufRead s i := by
  simp only [bufRead, appendByte_blen, appendByte_buf, Memory.read_write]
  by_cases h : i = s.blen
  · simp [h]
  · by_cases hi : i < s.blen
    · simp [h, hi, Nat.lt_succ_of_lt hi]
    · simp [h, hi, show ¬ i < s.blen + 1 by omega]

/-- Reading after the prune. -/
theorem bufRead_pruneTo (k : Nat) (s : State) (i : Nat) : bufRead (pruneTo k s) i = bufRead s (i + k) := by
  simp only [bufRead, pruneTo_blen, pruneTo_buf, Memory.read_cut]
  by_cases h : i + k < s.blen
  · simp [h, show i < s.blen - k by omega]
  · simp [h]

/-- A multi-byte read inside the valid part answers its bytes. -/
theorem State.BufOk.memReadFrom {s : State} (h : s.BufOk) {n i : Nat} (hi : i + n ≤ s.blen) :
    ∃ bs, memReadFrom s i n = some bs ∧ bs.length = n := by
  induction n generalizing i with
  | zero => exact ⟨[], rfl, rfl⟩
  | succ n ih =>
    obtain ⟨b, hb⟩ := h.bufRead_some (i := i) (by omega)
    obtain ⟨bs, hbs, hl⟩ := ih (i := i + 1) (by omega)
    exact ⟨b :: bs, by simp [Machine.memReadFrom, hb, hbs], by simp [hl]⟩

theorem State.BufOk.memRead {s : State} (h : s.BufOk) {n i : Nat} (hi : i + n ≤ s.blen) :
    ∃ bs, memRead s i n = some bs ∧ bs.length = n := by
  obtain ⟨bs, hbs, hl⟩ := h.memReadFrom hi
  exact ⟨bs, by simp [Machine.memRead, hi, hbs], hl⟩

/-! ### The valid part -/

/-- The valid part of a gapless buffer is its bytes. -/
theorem State.BufOk.length_validPart {s : State} (h : s.BufOk) : s.validPart.length = s.blen := by
  have key : ∀ l : List Nat, (∀ i ∈ l, i < s.blen) → (l.filterMap s.buf.read).length = l.length := by
    intro l
    induction l with
    | nil => intro _; rfl
    | cons i l ih =>
      intro hl
      obtain ⟨b, hb⟩ := h.bufRead_some (hl i List.mem_cons_self)
      have hb' : s.buf.read i = some b := by
        simpa [bufRead, hl i List.mem_cons_self] using hb
      rw [List.filterMap_cons_some hb', List.length_cons, List.length_cons,
        ih (fun j hj => hl j (List.mem_cons_of_mem _ hj))]
  simpa [State.validPart] using key (List.range s.blen) (fun i hi => List.mem_range.1 hi)

theorem State.BufOk.validPart_getElem? {s : State} (h : s.BufOk) (i : Nat) :
    s.validPart[i]? = bufRead s i := by
  have key : ∀ n, n ≤ s.blen →
      ((List.range n).filterMap s.buf.read).length = n ∧
      ∀ i, i < n → ((List.range n).filterMap s.buf.read)[i]? = bufRead s i := by
    intro n
    induction n with
    | zero => intro _; simp
    | succ n ih =>
      intro hn
      obtain ⟨hl, hg⟩ := ih (by omega)
      obtain ⟨b, hb⟩ := h.bufRead_some (i := n) (by omega)
      have hb' : s.buf.read n = some b := by
        simpa [bufRead, show n < s.blen by omega] using hb
      rw [List.range_succ, List.filterMap_append, List.filterMap_cons_some hb', List.filterMap_nil]
      refine ⟨by simp [hl], fun i hi => ?_⟩
      by_cases hin : i < n
      · rw [List.getElem?_append_left (by omega), hg i hin]
      · obtain rfl : i = n := by omega
        rw [List.getElem?_append_right (by omega), hl, hb]; simp
  by_cases hi : i < s.blen
  · exact (key s.blen le_rfl).2 i hi
  · rw [bufRead_of_le (Nat.not_lt.1 hi), List.getElem?_eq_none]
    rw [h.length_validPart]; omega

/-- Two gapless buffers with the same reads have the same valid part. -/
theorem validPart_ext {s : State} (h : s.BufOk) {l : List Byte} (hl : ∀ i, bufRead s i = l[i]?) :
    s.validPart = l :=
  List.ext_getElem? fun i => by rw [h.validPart_getElem?, hl]

theorem validPart_appendByte {s : State} (h : s.BufOk) (b : Byte) :
    (appendByte b s).validPart = s.validPart ++ [b] := by
  refine validPart_ext (bufOk_appendByte h b) fun i => ?_
  rw [bufRead_appendByte, List.getElem?_append, h.length_validPart, h.validPart_getElem?]
  by_cases hi : i < s.blen
  · simp [hi, Nat.ne_of_lt hi]
  · by_cases he : i = s.blen
    · simp [he]
    · simp [hi, he, bufRead_of_le (Nat.not_lt.1 hi), show ¬ i - s.blen = 0 by omega]

theorem validPart_pruneTo {s : State} (h : s.BufOk) (k : Nat) :
    (pruneTo k s).validPart = s.validPart.drop k := by
  refine validPart_ext (bufOk_pruneTo h k) fun i => ?_
  rw [bufRead_pruneTo, List.getElem?_drop, h.validPart_getElem?, Nat.add_comm]

theorem validPart_clearBuffer (s : State) : (clearBuffer s).validPart = [] := rfl

theorem validPart_congr {s t : State} (hb : s.buf = t.buf) (hl : s.blen = t.blen) :
    s.validPart = t.validPart := by simp [State.validPart, hb, hl]

/-- A multi-byte read is a slice of the valid part. -/
theorem State.BufOk.memRead_eq {s : State} (h : s.BufOk) {i n : Nat} (hi : i + n ≤ s.blen) :
    Machine.memRead s i n = some ((s.validPart.drop i).take n) := by
  have key : ∀ n i, i + n ≤ s.blen →
      Machine.memReadFrom s i n = some ((s.validPart.drop i).take n) := by
    intro n
    induction n with
    | zero => intro i _; simp [Machine.memReadFrom]
    | succ n ih =>
      intro i hi
      have hlt : i < s.validPart.length := by rw [h.length_validPart]; omega
      have hb : bufRead s i = some s.validPart[i] := by
        rw [← h.validPart_getElem?, List.getElem?_eq_getElem hlt]
      simp only [Machine.memReadFrom, hb, ih (i + 1) (by omega)]
      rw [List.drop_eq_getElem_cons hlt, List.take_succ_cons]
  simp [Machine.memRead, hi, key n i hi]

end Sys2Proof.Machine
end

