-- ==== Sys2Proof/Laws/Scanner.lean ====
section
/-! SUPPORT. What each micro-operation, one iteration and the whole loop of a pass can do
(spec/42_frame_scanner.md R151 to R166). -/

namespace Sys2Proof.Machine

open Sys2Proof.Safety

/-! ### Inversion: what an answer looks like -/

theorem scanHdr_of_read {s : State} {b : Byte} (h : bufRead s s.pos = some b) :
    scanHdr s = .next { s with len := candidateLength b } := by simp [scanHdr, h]

theorem scanHdr_next {s t : State} (h : scanHdr s = .next t) :
    ∃ b, bufRead s s.pos = some b ∧ t = { s with len := candidateLength b } := by
  unfold scanHdr at h
  split at h
  · next b hb => exact ⟨b, hb, (next_inj h).symm⟩
  · cases h

theorem scanCheck_next {s t : State} (h : scanCheck s = .next t) :
    ∃ bs, memRead s s.pos s.len = some bs ∧
      t = { s with vcrc := crcFeed xmodem (crcStart xmodem) bs } := by
  unfold scanCheck at h
  split at h
  · next bs hb => exact ⟨bs, hb, (next_inj h).symm⟩
  · cases h

theorem scanEmit_next {s t : State} (h : scanEmit s = .next t) :
    ∃ bs b, memRead s s.pos s.len = some bs ∧ bufRead s (s.pos + 1) = some b ∧
      t = { publish ⟨s.cfg.topic, hex bs⟩ s with
              f1 := b, pos := s.pos + s.len, lastEnd := s.pos + s.len, acc := true } := by
  unfold scanEmit at h
  split at h
  · next bs b hb hb1 => exact ⟨bs, b, hb, hb1, (next_inj h).symm⟩
  · cases h

theorem scanAck_next {s t : State} (h : scanAck s = .next t) :
    t = s ∨ s.pos < s.blen ∧ t = { s with pos := s.pos + 1 } := by
  unfold scanAck at h
  split at h
  · next hp =>
    split at h
    · split at h
      · exact .inr ⟨hp, (next_inj h).symm⟩
      · exact .inl (next_inj h).symm
    · cases h
  · exact .inl (next_inj h).symm

/-! ### What a pass leaves alone before its prune -/

/-- `t` differs from `s` at most in the scan registers and the events. -/
def PassOnly (s t : State) : Prop :=
  t = { s with vcrc := t.vcrc, pos := t.pos, len := t.len, lastEnd := t.lastEnd, f1 := t.f1
               acc := t.acc, out := t.out }

theorem PassOnly.refl (s : State) : PassOnly s s := rfl

theorem PassOnly.trans {s t u : State} (h : PassOnly s t) (g : PassOnly t u) : PassOnly s u := by
  unfold PassOnly at *
  rw [g, h]

theorem PassOnly.blen {s t : State} (h : PassOnly s t) : t.blen = s.blen := by rw [h]
theorem PassOnly.buf {s t : State} (h : PassOnly s t) : t.buf = s.buf := by rw [h]
theorem PassOnly.cfg {s t : State} (h : PassOnly s t) : t.cfg = s.cfg := by rw [h]
theorem PassOnly.st {s t : State} (h : PassOnly s t) : t.st = s.st := by rw [h]
theorem PassOnly.bufOk {s t : State} (h : PassOnly s t) (hs : s.BufOk) : t.BufOk := by
  rw [State.BufOk, h.buf, h.blen]; exact hs
theorem PassOnly.validPart {s t : State} (h : PassOnly s t) : t.validPart = s.validPart :=
  validPart_congr h.buf h.blen

theorem passOnly_startPass (s : State) : PassOnly s (startPass s) := rfl
theorem passOnly_reject (s : State) : PassOnly s (reject s) := rfl

theorem scanHdr_passOnly {s t : State} (h : scanHdr s = .next t) : PassOnly s t := by
  obtain ⟨b, -, rfl⟩ := scanHdr_next h; rfl

theorem scanCheck_passOnly {s t : State} (h : scanCheck s = .next t) : PassOnly s t := by
  obtain ⟨b, -, rfl⟩ := scanCheck_next h; rfl

theorem scanEmit_passOnly {s t : State} (h : scanEmit s = .next t) : PassOnly s t := by
  obtain ⟨bs, b, -, -, rfl⟩ := scanEmit_next h; rfl

theorem scanAck_passOnly {s t : State} (h : scanAck s = .next t) : PassOnly s t := by
  obtain rfl | ⟨-, rfl⟩ := scanAck_next h <;> rfl

/-- One iteration went one of three ways. -/
theorem scanIteration_next {s t : State} (h : scanIteration s = .next t) :
    ∃ a, scanHdr s = .next a ∧
      ((lengthOK a = false ∧ t = reject a) ∨
        ∃ c, lengthOK a = true ∧ scanCheck a = .next c ∧
          ((crcOK c = false ∧ t = reject c) ∨
            ∃ d, crcOK c = true ∧ scanEmit c = .next d ∧ scanAck d = .next t)) := by
  obtain ⟨a, ha, h⟩ := andThen_eq_next h
  refine ⟨a, ha, ?_⟩
  split at h
  · next hl =>
    obtain ⟨c, hc, h⟩ := andThen_eq_next h
    refine .inr ⟨c, hl, hc, ?_⟩
    split at h
    · next hk =>
      obtain ⟨d, hd, h⟩ := andThen_eq_next h
      exact .inr ⟨d, hk, hd, h⟩
    · next hk => exact .inl ⟨by simpa using hk, (next_inj h).symm⟩
  · next hl => exact .inl ⟨by simpa using hl, (next_inj h).symm⟩

theorem scanIteration_passOnly {s t : State} (h : scanIteration s = .next t) : PassOnly s t := by
  obtain ⟨a, ha, ⟨-, rfl⟩ | ⟨c, -, hc, ⟨-, rfl⟩ | ⟨d, -, hd, ht⟩⟩⟩ := scanIteration_next h
  · exact (scanHdr_passOnly ha).trans (passOnly_reject a)
  · exact ((scanHdr_passOnly ha).trans (scanCheck_passOnly hc)).trans (passOnly_reject c)
  · exact (((scanHdr_passOnly ha).trans (scanCheck_passOnly hc)).trans
      (scanEmit_passOnly hd)).trans (scanAck_passOnly ht)

/-- Every iteration moves the cursor up (R166). -/
theorem scanIteration_pos_lt {s t : State} (h : scanIteration s = .next t) : s.pos < t.pos := by
  obtain ⟨a, ha, hr⟩ := scanIteration_next h
  obtain ⟨b, -, rfl⟩ := scanHdr_next ha
  obtain ⟨-, rfl⟩ | ⟨c, -, hc, hr⟩ := hr
  · simp
  · obtain ⟨bs, -, rfl⟩ := scanCheck_next hc
    obtain ⟨-, rfl⟩ | ⟨d, -, hd, ht⟩ := hr
    · simp
    · obtain ⟨bs', b', -, -, rfl⟩ := scanEmit_next hd
      obtain rfl | ⟨-, rfl⟩ := scanAck_next ht <;> simp [candidateLength, frameOverhead]

/-! ### The loop -/

/-- A property that every iteration keeps holds after the loop. -/
theorem scanLoop_induct {P : State → Prop}
    (hstep : ∀ s t, P s → s.pos < s.blen → scanIteration s = .next t → P t) :
    ∀ {n : Nat} {s t : State}, P s → scanLoop n s = .next t → P t := by
  intro n
  induction n with
  | zero => intro s t hs h; rwa [← next_inj h]
  | succ n ih =>
    intro s t hs h
    unfold scanLoop at h
    split at h
    · next hp =>
      obtain ⟨m, hm, h⟩ := andThen_eq_next h
      exact ih (hstep s m hs hp hm) h
    · rwa [← next_inj h]

theorem scanLoop_passOnly {n : Nat} {s t : State} (h : scanLoop n s = .next t) : PassOnly s t :=
  scanLoop_induct (P := PassOnly s) (fun _ _ hs _ hi => hs.trans (scanIteration_passOnly hi))
    (PassOnly.refl s) h

/-- Enough iterations end the loop (R166). -/
theorem scanLoop_ends {n : Nat} {s t : State} (hn : s.blen - s.pos ≤ n) (h : scanLoop n s = .next t) :
    t.blen ≤ t.pos := by
  induction n generalizing s with
  | zero => rw [← next_inj h]; omega
  | succ n ih =>
    unfold scanLoop at h
    split at h
    · obtain ⟨m, hm, h⟩ := andThen_eq_next h
      have h1 := scanIteration_pos_lt hm
      have h2 := (scanIteration_passOnly hm).blen
      exact ih (by omega) h
    · rw [← next_inj h]; omega

/-- The whole command went through the loop and the prune. -/
theorem execScan_next {s t : State} (h : execScan s = .next t) :
    ∃ m, scanLoop s.blen (startPass s) = .next m ∧ PassOnly s m ∧ t = scanPrune m := by
  obtain ⟨m, hm, ht⟩ := andThen_eq_next h
  exact ⟨m, hm, (passOnly_startPass s).trans (scanLoop_passOnly hm), (next_inj ht).symm⟩

/-! ### The prune -/

theorem scanPrune_only (s : State) :
    scanPrune s = { s with buf := (scanPrune s).buf, blen := (scanPrune s).blen } := by
  unfold scanPrune; split_ifs <;> rfl

theorem scanPrune_bufOk {s : State} (h : s.BufOk) : (scanPrune s).BufOk := by
  unfold scanPrune; split_ifs
  · exact bufOk_pruneTo h _
  · exact bufOk_pruneTo h _
  · exact h

/-- How many bytes `SCAN.PRUNE` cuts off (R165). -/
def cutIndex (s : State) : Nat := if s.acc then s.lastEnd else s.blen - s.cfg.maxFrame

theorem scanPrune_blen (s : State) : (scanPrune s).blen = s.blen - cutIndex s := by
  unfold scanPrune cutIndex
  split_ifs
  · rfl
  · simp
  · omega

theorem bufRead_scanPrune (s : State) (i : Nat) :
    bufRead (scanPrune s) i = bufRead s (i + cutIndex s) := by
  unfold scanPrune cutIndex
  split_ifs with h1 h2
  · exact bufRead_pruneTo _ _ _
  · exact bufRead_pruneTo _ _ _
  · rw [Nat.sub_eq_zero_of_le (Nat.not_lt.1 h2), Nat.add_zero]

theorem validPart_scanPrune {s : State} (h : s.BufOk) :
    (scanPrune s).validPart = s.validPart.drop (cutIndex s) := by
  unfold scanPrune cutIndex
  split_ifs with h1 h2
  · exact validPart_pruneTo h _
  · exact validPart_pruneTo h _
  · rw [Nat.sub_eq_zero_of_le (Nat.not_lt.1 h2), List.drop_zero]

/-! ### One iteration against the decoder over byte sequences -/

theorem ackMatches_iff (f1 a : Byte) :
    ackMatches f1 a = true ↔ (a.toNat = f1.toNat / 16 * 16 + 10 ∨ (f1.toNat = 15 ∧ a.toNat = 26)) := by
  have hv : (ackValue f1).toNat = f1.toNat / 16 * 16 + 10 := by
    have : ∀ v : BitVec 8, (ackValue v).toNat = v.toNat / 16 * 16 + 10 := by decide +kernel
    exact this f1
  have hn : ∀ x y : Byte, x = y ↔ x.toNat = y.toNat := fun x y => BitVec.toNat_inj.symm
  simp [ackMatches, hn, hv]

theorem lengthOK_iff (s : State) :
    lengthOK s = true ↔ s.cfg.minFrame ≤ s.len ∧ s.len ≤ s.cfg.maxFrame ∧ s.len ≤ s.blen - s.pos := by
  simp [lengthOK, tooShort, tooLong, runsPast, and_assoc]

/-- The ACK skip in terms of the bytes after the frame. -/
theorem scanAck_eq {s : State} (h : s.BufOk) {f : List Byte} {x : Byte} (hf : f = x :: s.f1 :: f.drop 2)
    (hp : s.pos ≤ s.blen) :
    scanAck s = .next { s with pos := s.pos + ackLength f (s.validPart.drop s.pos) } := by
  unfold scanAck
  split
  · next hlt =>
    have hl : s.pos < s.validPart.length := by rwa [h.length_validPart]
    have hb : bufRead s s.pos = some s.validPart[s.pos] := by
      rw [← h.validPart_getElem?, List.getElem?_eq_getElem hl]
    rw [hb, List.drop_eq_getElem_cons hl, hf]
    simp only [ackLength]
    by_cases hm : ackMatches s.f1 s.validPart[s.pos] = true
    · rw [if_pos hm, if_pos ((ackMatches_iff _ _).1 hm)]
    · rw [if_neg hm, if_neg (fun hc => hm ((ackMatches_iff _ _).2 hc))]
      rfl
  · next hge =>
    have : s.validPart.drop s.pos = [] := by
      rw [List.drop_eq_nil_iff, h.length_validPart]; omega
    rw [this, hf]; rfl

theorem ackLength_le (f rest : List Byte) : ackLength f rest ≤ rest.length := by
  unfold ackLength
  split
  · split <;> simp
  · omega

/-- No frame at the cursor: the iteration moves on by one byte. -/
theorem scanIteration_of_no_frame {s : State} (h : s.BufOk) (hp : s.pos < s.blen)
    (hf : frameAtHead s.cfg (s.validPart.drop s.pos) = none) :
    ∃ l v, scanIteration s = .next { s with len := l, vcrc := v, pos := s.pos + 1 } := by
  have hl : s.pos < s.validPart.length := by rwa [h.length_validPart]
  have hb : bufRead s s.pos = some s.validPart[s.pos] := by
    rw [← h.validPart_getElem?, List.getElem?_eq_getElem hl]
  set b := s.validPart[s.pos] with hbdef
  have hlen : (s.validPart.drop s.pos).length = s.blen - s.pos := by
    rw [List.length_drop, h.length_validPart]
  unfold scanIteration
  rw [scanHdr_of_read hb, andThen_next]
  split
  · next hok =>
    rw [lengthOK_iff] at hok
    obtain ⟨h1, h2, h3⟩ := hok
    have h3' : s.pos + candidateLength b ≤ s.blen := by dsimp only at h3; omega
    have hm : memRead { s with len := candidateLength b } s.pos (candidateLength b)
        = some ((s.validPart.drop s.pos).take (candidateLength b)) := by
      rw [← h.memRead_eq h3']; apply memRead_congr <;> rfl
    simp only [scanCheck, hm, andThen_next]
    split
    · next hcrc =>
      exfalso
      replace hcrc : crc16 xmodem ((s.validPart.drop s.pos).take (candidateLength b)) = 0 := by
        simpa [crcOK, crc16] using hcrc
      rw [List.drop_eq_getElem_cons hl] at hf hcrc hlen
      simp only [frameAtHead] at hf
      rw [if_pos ⟨h1, h2, by rw [hlen]; simpa [candidateLength, frameOverhead] using h3, hcrc⟩] at hf
      cases hf
    · exact ⟨_, _, rfl⟩
  · exact ⟨_, s.vcrc, rfl⟩

/-- A frame of `k` bytes at the cursor: the iteration accepts it. -/
theorem scanIteration_of_frame {s : State} (h : s.BufOk) (hp : s.pos < s.blen) {k : Nat}
    (hf : frameAtHead s.cfg (s.validPart.drop s.pos) = some k) :
    4 ≤ k ∧ s.cfg.minFrame ≤ k ∧ s.pos + k ≤ s.blen ∧ ∃ v b,
      scanIteration s = .next { s with
        len := k, vcrc := v, f1 := b, lastEnd := s.pos + k, acc := true
        pos := s.pos + k + ackLength ((s.validPart.drop s.pos).take k) (s.validPart.drop (s.pos + k))
        out := s.out ++ [eventOf s.cfg ((s.validPart.drop s.pos).take k)] } := by
  have hl : s.pos < s.validPart.length := by rwa [h.length_validPart]
  have hb : bufRead s s.pos = some s.validPart[s.pos] := by
    rw [← h.validPart_getElem?, List.getElem?_eq_getElem hl]
  set b := s.validPart[s.pos] with hbdef
  have hlen : (s.validPart.drop s.pos).length = s.blen - s.pos := by
    rw [List.length_drop, h.length_validPart]
  have hcons := List.drop_eq_getElem_cons hl
  rw [hcons] at hf
  simp only [frameAtHead] at hf
  split at hf
  swap
  · cases hf
  next hc =>
  obtain ⟨h1, h2, h3, h4⟩ := hc
  rw [← hcons] at h3 h4
  rw [hlen, ← hbdef] at h3
  obtain rfl : candidateLength b = k := by simpa [candidateLength, frameOverhead] using hf
  have h3' : s.pos + candidateLength b ≤ s.blen := by
    simp only [candidateLength, frameOverhead]; omega
  refine ⟨by simp [candidateLength, frameOverhead], h1, h3', ?_⟩
  have hok : lengthOK { s with len := candidateLength b } = true := (lengthOK_iff _).2 ⟨h1, h2, h3⟩
  have hm : ∀ v, memRead { s with len := candidateLength b, vcrc := v } s.pos (candidateLength b)
      = some ((s.validPart.drop s.pos).take (candidateLength b)) := by
    intro v; rw [← h.memRead_eq h3']; apply memRead_congr <;> rfl
  have hl1 : s.pos + 1 < s.validPart.length := by
    rw [h.length_validPart]; simp only [candidateLength, frameOverhead] at h3'; omega
  have hb1 : ∀ v, bufRead { s with len := candidateLength b, vcrc := v } (s.pos + 1)
      = some s.validPart[s.pos + 1] := by
    intro v; rw [← List.getElem?_eq_getElem hl1, h.validPart_getElem?]; apply bufRead_congr <;> rfl
  refine ⟨crcFeed xmodem (crcStart xmodem) ((s.validPart.drop s.pos).take (candidateLength b)),
    s.validPart[s.pos + 1], ?_⟩
  unfold scanIteration
  rw [scanHdr_of_read hb, andThen_next, if_pos hok]
  have hchk : scanCheck { s with len := candidateLength b } = .next { s with
      len := candidateLength b
      vcrc := crcFeed xmodem (crcStart xmodem) ((s.validPart.drop s.pos).take (candidateLength b)) } := by
    simp only [scanCheck, hm s.vcrc]
  rw [hchk, andThen_next, if_pos (by simpa [crcOK, crc16, candidateLength, frameOverhead] using h4)]
  simp only [scanEmit, hm, hb1, andThen_next, publish]
  refine (scanAck_eq (f := (s.validPart.drop s.pos).take (candidateLength b)) (x := b) ?_ ?_ ?_).trans ?_
  · exact h
  · rw [hcons, List.drop_eq_getElem_cons hl1]; rfl
  · exact h3'
  · rfl

/-! ### The loop against the decoder over byte sequences -/

/-- `decodeFrom` with its first byte exposed: no frame there. -/
theorem decodeFrom_of_no_frame {c : Config} {n i : Nat} {b : Byte} {bs : List Byte}
    (h : frameAtHead c (b :: bs) = none) :
    decodeFrom c (n + 1) i (b :: bs) = decodeFrom c n (i + 1) bs := by
  simp only [decodeFrom, h]

/-- `decodeFrom` with a frame of `k` bytes first. -/
theorem decodeFrom_of_frame {c : Config} {n i k : Nat} {b : Byte} {bs : List Byte}
    (h : frameAtHead c (b :: bs) = some k) :
    decodeFrom c (n + 1) i (b :: bs) =
      let f := (b :: bs).take k
      let a := ackLength f ((b :: bs).drop k)
      let r := decodeFrom c n (i + k + a) (((b :: bs).drop k).drop a)
      (f :: r.1, some (r.2.getD (i + k))) := by
  simp only [decodeFrom, h]

theorem decodeFrom_nil (c : Config) (n i : Nat) : decodeFrom c n i [] = ([], none) := by
  cases n with
  | zero => rfl
  | succ n => simp [decodeFrom]

/-- What the loop has done when it ends: its events are the decoder's frames, and the end offset is the
decoder's, if it has one. It performs no read outside the valid part. -/
theorem scanLoop_decodes {n : Nat} {s : State} (h : s.BufOk) (hp : s.pos ≤ s.blen)
    (hn : s.blen - s.pos ≤ n) :
    ∃ t, scanLoop n s = .next t ∧ t.pos = s.blen ∧
      t.out = s.out ++ (decodeFrom s.cfg n s.pos (s.validPart.drop s.pos)).1.map (eventOf s.cfg) ∧
      match (decodeFrom s.cfg n s.pos (s.validPart.drop s.pos)).2 with
      | none => t.acc = s.acc ∧ t.lastEnd = s.lastEnd ∧ t.out = s.out
      | some e => t.acc = true ∧ t.lastEnd = e ∧ s.pos + 4 ≤ e ∧ e ≤ s.blen := by
  induction n generalizing s with
  | zero => exact ⟨s, rfl, by omega, by simp [decodeFrom], by simp [decodeFrom]⟩
  | succ n ih =>
    by_cases hlt : s.pos < s.blen
    swap
    · have hnil : s.validPart.drop s.pos = [] := by
        rw [List.drop_eq_nil_iff, h.length_validPart]; omega
      refine ⟨s, by simp [scanLoop, hlt], by omega, ?_, ?_⟩ <;> rw [hnil, decodeFrom_nil] <;> simp
    have hl : s.pos < s.validPart.length := by rwa [h.length_validPart]
    have hcons := List.drop_eq_getElem_cons hl
    cases hf : frameAtHead s.cfg (s.validPart.drop s.pos) with
    | none =>
      obtain ⟨l, v, hi⟩ := scanIteration_of_no_frame h hlt hf
      obtain ⟨t, ht, hpos, hout, hend⟩ :=
        ih (s := { s with len := l, vcrc := v, pos := s.pos + 1 }) h hlt
          (by show s.blen - (s.pos + 1) ≤ n; omega)
      rw [hcons] at hf ⊢
      rw [decodeFrom_of_no_frame hf]
      exact ⟨t, by simp only [scanLoop, hlt, if_true, hi, andThen_next]; exact ht, hpos, hout, by
        revert hend
        dsimp only [State.validPart]
        split
        · exact id
        · rintro ⟨h1, h2, h3, h4⟩; exact ⟨h1, h2, by omega, h4⟩⟩
    | some k =>
      obtain ⟨hk4, -, hkb, v, b, hi⟩ := scanIteration_of_frame h hlt hf
      set f := (s.validPart.drop s.pos).take k with hfdef
      set a := ackLength f (s.validPart.drop (s.pos + k)) with hadef
      have ha : s.pos + k + a ≤ s.blen := by
        have := ackLength_le f (s.validPart.drop (s.pos + k))
        rw [List.length_drop, h.length_validPart] at this; omega
      obtain ⟨t, ht, hpos, hout, hend⟩ :=
        ih (s := { s with len := k, vcrc := v, f1 := b, lastEnd := s.pos + k, acc := true
                          pos := s.pos + k + a, out := s.out ++ [eventOf s.cfg f] }) h ha
          (by show s.blen - (s.pos + k + a) ≤ n; omega)
      have hdec : decodeFrom s.cfg (n + 1) s.pos (s.validPart.drop s.pos) =
          let r := decodeFrom s.cfg n (s.pos + k + a) (s.validPart.drop (s.pos + k + a))
          (f :: r.1, some (r.2.getD (s.pos + k))) := by
        rw [hcons] at hf
        conv_lhs => rw [hcons]
        rw [decodeFrom_of_frame hf, ← hcons]
        simp only [List.drop_drop, ← hfdef]
        rfl
      rw [hdec]
      refine ⟨t, by simp only [scanLoop, hlt, if_true, hi, andThen_next]; exact ht, hpos, ?_, ?_⟩
      · rw [hout]; simp only [List.map_cons, List.append_assoc, List.singleton_append]; rfl
      · revert hend
        dsimp only [State.validPart]
        split
        · next he =>
          rintro ⟨h1, h2, -⟩
          simp only [he, Option.getD_none]
          exact ⟨h1, h2, by omega, by omega⟩
        · next e he =>
          rintro ⟨h1, h2, h3, h4⟩
          simp only [he, Option.getD_some]
          exact ⟨h1, h2, by omega, h4⟩

/-- The same of the whole pass before its prune. -/
theorem execScan_decodes {s : State} (h : s.BufOk) :
    ∃ m, execScan s = .next (scanPrune m) ∧ PassOnly s m ∧ m.pos = s.blen ∧
      m.out = s.out ++ (decodeFrom s.cfg s.blen 0 s.validPart).1.map (eventOf s.cfg) ∧
      match (decodeFrom s.cfg s.blen 0 s.validPart).2 with
      | none => m.acc = false ∧ m.lastEnd = 0 ∧ m.out = s.out
      | some e => m.acc = true ∧ m.lastEnd = e ∧ 4 ≤ e ∧ e ≤ s.blen := by
  obtain ⟨m, hm, hpos, hout, hend⟩ := scanLoop_decodes (n := s.blen) (s := startPass s) h
    (Nat.zero_le _) (by simp)
  refine ⟨m, by simp only [execScan, hm, andThen_next],
    (passOnly_startPass s).trans (scanLoop_passOnly hm), hpos, hout, ?_⟩
  revert hend
  simp only [startPass_pos, List.drop_zero, startPass_cfg, startPass_acc, startPass_lastEnd,
    startPass_blen, startPass_out, Nat.zero_add]
  exact id

end Sys2Proof.Machine
end

