-- ==== Sys2Proof/Laws/Decoder.lean ====
section
/-! SUPPORT. The decoder over byte sequences, and the whole command `SCAN` in its terms
(spec/42_frame_scanner.md R150, R165). -/

namespace Sys2Proof.Safety

open Sys2Proof.Machine

/-- What a frame at the head of the bytes is. -/
theorem frameAtHead_some {c : Config} {bs : List Byte} {k : Nat} (h : frameAtHead c bs = some k) :
    ∃ b rest, bs = b :: rest ∧ k = b.toNat + 4 ∧ c.minFrame ≤ k ∧ k ≤ c.maxFrame ∧
      k ≤ bs.length ∧ crc16 xmodem (bs.take k) = 0 := by
  cases bs with
  | nil => cases h
  | cons b rest =>
    simp only [frameAtHead] at h
    split at h
    · next hc =>
      obtain rfl : b.toNat + 4 = k := by simpa using h
      exact ⟨b, rest, rfl, rfl, hc.1, hc.2.1, hc.2.2.1, hc.2.2.2⟩
    · cases h

/-- Every frame of a pass stands at some position. -/
theorem decodeFrom_frames (c : Config) : ∀ (n i j : Nat) (bs : List Byte),
    ∀ f ∈ (decodeFrom c n j (bs.drop i)).1,
      ∃ p k, frameAtHead c (bs.drop p) = some k ∧ f = (bs.drop p).take k := by
  intro n
  induction n with
  | zero => intro i j bs f h; simp [decodeFrom] at h
  | succ n ih =>
    intro i j bs f h
    cases hd : bs.drop i with
    | nil => rw [hd, decodeFrom_nil] at h; simp at h
    | cons b rest =>
      have hr : rest = bs.drop (i + 1) := by rw [← List.drop_drop, hd]; rfl
      rw [hd] at h
      cases hf : frameAtHead c (b :: rest) with
      | none => rw [decodeFrom_of_no_frame hf, hr] at h; exact ih _ _ _ _ h
      | some k =>
        rw [decodeFrom_of_frame hf] at h
        simp only [List.mem_cons] at h
        rcases h with rfl | h
        · exact ⟨i, k, by rw [hd]; exact hf, by rw [hd]⟩
        · rw [← hd, List.drop_drop, List.drop_drop] at h; exact ih _ _ _ _ h

/-- A pass over bytes in which no frame begins accepts nothing. -/
theorem decodeFrom_none (c : Config) : ∀ (n i : Nat) (bs : List Byte),
    (∀ k, k < bs.length → frameAtHead c (bs.drop k) = none) → decodeFrom c n i bs = ([], none) := by
  intro n
  induction n with
  | zero => intro i bs _; rfl
  | succ n ih =>
    intro i bs h
    cases bs with
    | nil => exact decodeFrom_nil _ _ _
    | cons b bs =>
      rw [decodeFrom_of_no_frame (h 0 (by simp))]
      exact ih _ _ (fun k hk => h (k + 1) (by simpa using hk))

/-- A pass moves over `d` positions at which no frame begins. -/
theorem decodeFrom_skip (c : Config) (bs : List Byte) : ∀ (d n i : Nat),
    (∀ k, i ≤ k → k < i + d → frameAtHead c (bs.drop k) = none) → i + d ≤ bs.length →
      decodeFrom c (d + n) i (bs.drop i) = decodeFrom c n (i + d) (bs.drop (i + d)) := by
  intro d
  induction d with
  | zero => intro n i _ _; simp
  | succ d ih =>
    intro n i h hl
    have hi : i < bs.length := by omega
    have h0 := h i le_rfl (by omega)
    rw [List.drop_eq_getElem_cons hi] at h0 ⊢
    rw [show d + 1 + n = (d + n) + 1 by omega, decodeFrom_of_no_frame h0,
      ih n (i + 1) (fun k h1 h2 => h k (by omega) (by omega)) (by omega)]
    rw [show i + 1 + d = i + (d + 1) by omega]

/-- A pass that records an end offset has a frame. -/
theorem decodeFrom_ne_nil (c : Config) : ∀ (n i : Nat) (bs : List Byte),
    (decodeFrom c n i bs).2 ≠ none → (decodeFrom c n i bs).1 ≠ [] := by
  intro n
  induction n with
  | zero => intro i bs; simp [decodeFrom]
  | succ n ih =>
    intro i bs
    cases bs with
    | nil => simp [decodeFrom]
    | cons b bs =>
      cases hf : frameAtHead c (b :: bs) with
      | none => rw [decodeFrom_of_no_frame hf]; exact ih _ _
      | some k => rw [decodeFrom_of_frame hf]; simp

/-- The next state of `SCAN`, whenever there is one. -/
theorem exec_scan_next {s t : State} (h : s.BufOk) (ht : exec .scan s = .next t) :
    ∃ m, t = scanPrune m ∧ PassOnly s m ∧ m.pos = s.blen ∧
      m.out = s.out ++ (decodeFrom s.cfg s.blen 0 s.validPart).1.map (eventOf s.cfg) ∧
      match (decodeFrom s.cfg s.blen 0 s.validPart).2 with
      | none => m.acc = false ∧ m.lastEnd = 0 ∧ m.out = s.out
      | some e => m.acc = true ∧ m.lastEnd = e ∧ 4 ≤ e ∧ e ≤ s.blen := by
  obtain ⟨m, hm, hrest⟩ := execScan_decodes h
  exact ⟨m, next_inj (ht.symm.trans hm), hrest⟩

end Sys2Proof.Safety
end

