-- ==== Sys2Proof/Laws/Operands.lean ====
section
/-! SUPPORT. The operand functions: the time gap (spec/41_frame_buffer.md R132), the nibbles and digits
of the hex encoder (spec/43_hex_publish.md R190), and the fields of the command word
(spec/30_encoding.md R86). -/

namespace Sys2Proof.Machine

/-- The gap as an integer. -/
theorem timeGap_cast (w now last : Nat) :
    ((timeGap w now last : Nat) : Int) = ((now : Int) - last) % ((2 ^ w : Nat) : Int) := by
  unfold timeGap
  rw [Int.toNat_of_nonneg]
  exact Int.emod_nonneg _ (by have := Nat.two_pow_pos w; omega)

/-- A reading enters the gap only through its residue. -/
theorem timeGap_mod (w now last : Nat) : timeGap w (now % 2 ^ w) last = timeGap w now last := by
  have : ((timeGap w (now % 2 ^ w) last : Nat) : Int) = timeGap w now last := by
    rw [timeGap_cast, timeGap_cast]
    push_cast
    simp [Int.sub_emod]
  exact_mod_cast this

theorem hexDigit_toNat (v : BitVec 4) :
    (hexDigit v).toNat = if v.toNat < 10 then 48 + v.toNat else 55 + v.toNat := by
  revert v; decide

theorem hiNibble_toNat (b : Byte) : (hiNibble b).toNat = b.toNat / 16 := by
  have := b.isLt
  simp [hiNibble, BitVec.extractLsb'_toNat, Nat.shiftRight_eq_div_pow]; omega

theorem loNibble_toNat (b : Byte) : (loNibble b).toNat = b.toNat % 16 := by
  simp [loNibble, BitVec.extractLsb'_toNat]

theorem opcodeOf_toNat (w : CmdWord) : (opcodeOf w).toNat = w.toNat / 256 := by
  have := w.isLt
  simp [opcodeOf, BitVec.extractLsb'_toNat, Nat.shiftRight_eq_div_pow]; omega

theorem operandOf_toNat (w : CmdWord) : (operandOf w).toNat = w.toNat % 256 := by
  simp [operandOf, BitVec.extractLsb'_toNat]

@[simp] theorem opcodeOf_packWord (op : BitVec 4) (b : Byte) : opcodeOf (packWord op b) = op := by
  have := b.isLt
  apply BitVec.eq_of_toNat_eq
  rw [opcodeOf_toNat, packWord, BitVec.toNat_append, ← Nat.shiftLeft_add_eq_or_of_lt b.isLt,
    Nat.shiftLeft_eq]
  omega

@[simp] theorem operandOf_packWord (op : BitVec 4) (b : Byte) : operandOf (packWord op b) = b := by
  have := b.isLt
  apply BitVec.eq_of_toNat_eq
  rw [operandOf_toNat, packWord, BitVec.toNat_append, ← Nat.shiftLeft_add_eq_or_of_lt b.isLt,
    Nat.shiftLeft_eq]
  omega

end Sys2Proof.Machine
end

