-- ==== Sys2Proof/Laws/PerInstr.lean ====
section
/-! SUPPORT. Statements about every command as syntax, one lemma per constructor. -/

namespace Sys2Proof.Laws.RoundTrip

open Sys2Proof.Machine

/-- The decoder reads from the encoder's word the command it was made from
(spec/30_encoding.md R86 to R88). -/
def Statement (i : Instr) : Prop := i.wellFormed = true → decodeWord (encode i) = i

theorem nop : Statement .nop := fun _ => rfl

theorem crcRestart : Statement .crcRestart := fun _ => rfl

theorem crcAdd (b : Byte) : Statement (.crcAdd b) := fun _ => by simp [decodeWord, encode]

theorem crcCalc : Statement .crcCalc := fun _ => rfl

theorem rxOpen : Statement .rxOpen := fun _ => rfl

theorem rxByte (b : Byte) : Statement (.rxByte b) := fun _ => by simp [decodeWord, encode]

theorem scan : Statement .scan := fun _ => rfl

theorem reserved7 : Statement .reserved7 := fun _ => rfl

theorem reserved8F (op : BitVec 4) : Statement (.reserved8F op) := by
  revert op; unfold Statement; decide

end Sys2Proof.Laws.RoundTrip
end

