-- ==== Sys2Proof/Laws/Fsm.lean ====
section
/-! SUPPORT. The state machine (spec/44_step_fsm.md R220 to R224) beside the micro-operations, and the
cases of one step. -/

namespace Sys2Proof.Machine

/-- The state with another state of the state machine. -/
def setSt (x : FsmState) (s : State) : State := { s with st := x }

@[simp] theorem setSt_st (x : FsmState) (s : State) : (setSt x s).st = x := rfl
@[simp] theorem setSt_setSt (x y : FsmState) (s : State) : setSt x (setSt y s) = setSt x s := rfl

/-! ### The micro-operations neither read nor write `st` -/

theorem scanHdr_setSt (x : FsmState) (s : State) :
    scanHdr (setSt x s) = andThen (scanHdr s) (fun t => .next (setSt x t)) := by
  simp only [scanHdr, setSt]
  rw [show bufRead { s with st := x } s.pos = bufRead s s.pos from rfl]
  cases bufRead s s.pos <;> rfl

theorem scanCheck_setSt (x : FsmState) (s : State) :
    scanCheck (setSt x s) = andThen (scanCheck s) (fun t => .next (setSt x t)) := by
  simp only [scanCheck, setSt]
  rw [show memRead { s with st := x } s.pos s.len = memRead s s.pos s.len by
    apply memRead_congr <;> rfl]
  cases memRead s s.pos s.len <;> rfl

theorem scanEmit_setSt (x : FsmState) (s : State) :
    scanEmit (setSt x s) = andThen (scanEmit s) (fun t => .next (setSt x t)) := by
  simp only [scanEmit, setSt]
  rw [show memRead { s with st := x } s.pos s.len = memRead s s.pos s.len by
      apply memRead_congr <;> rfl,
    show bufRead { s with st := x } (s.pos + 1) = bufRead s (s.pos + 1) from rfl]
  cases memRead s s.pos s.len <;> cases bufRead s (s.pos + 1) <;> rfl

theorem scanAck_setSt (x : FsmState) (s : State) :
    scanAck (setSt x s) = andThen (scanAck s) (fun t => .next (setSt x t)) := by
  simp only [scanAck, setSt]
  rw [show bufRead { s with st := x } s.pos = bufRead s s.pos from rfl]
  by_cases h : s.pos < s.blen
  · simp only [h, if_true]
    cases bufRead s s.pos with
    | none => rfl
    | some a => simp only [andThen_next]; by_cases hm : ackMatches s.f1 a = true <;> simp [hm]
  · simp [h]

/-! ### Runs of the state machine -/

theorem fsmRun_succ {n : Nat} {s : State} (h : s.st ≠ .idle) :
    fsmRun (n + 1) s = andThen (fsmStep s) (fsmRun n) := by rw [fsmRun, if_neg h]

theorem fsmRun_add (m n : Nat) (s : State) :
    fsmRun (m + n) s = andThen (fsmRun m s) (fsmRun n) := by
  induction m generalizing s with
  | zero => simp [fsmRun]
  | succ m ih =>
    rw [Nat.succ_add, fsmRun, fsmRun]
    by_cases h : s.st = .idle
    · rw [if_pos h, if_pos h, andThen_next]; cases n <;> simp [fsmRun, h]
    · rw [if_neg h, if_neg h, andThen_assoc]; congr 1; funext t; exact ih t

/-- One iteration of the loop of R150 is at most four transitions from HUNT to HUNT. -/
theorem fsmRun_iteration (s : State) (hp : s.pos < s.blen) :
    ∃ k, k ≤ 4 ∧ fsmRun k (setSt .hunt s)
      = andThen (scanIteration s) (fun t => .next (setSt .hunt t)) := by
  have hh : ∀ n, fsmRun (n + 1) (setSt .hunt s) = andThen (scanHdr s)
      (fun h => fsmRun n (if lengthOK h then setSt .check h else setSt .hunt (reject h))) := by
    intro n
    rw [fsmRun_succ (by simp)]
    have : fsmStep (setSt .hunt s) = andThen (scanHdr (setSt .hunt s)) fun h =>
        .next (if lengthOK h then { h with st := .check } else reject h) := by
      show (if s.pos < s.blen then _ else _) = _
      rw [if_pos hp]
    rw [this, scanHdr_setSt, andThen_assoc, andThen_assoc]
    rfl
  have hc : ∀ n (h : State), fsmRun (n + 1) (setSt .check h) = andThen (scanCheck h)
      (fun c => fsmRun n (if crcOK c then setSt .emit c else setSt .hunt (reject c))) := by
    intro n h
    rw [fsmRun_succ (by simp)]
    have : fsmStep (setSt .check h) = andThen (scanCheck (setSt .check h)) fun c =>
      .next (if crcOK c then { c with st := .emit } else { reject c with st := .hunt }) := rfl
    rw [this, scanCheck_setSt, andThen_assoc, andThen_assoc]
    rfl
  have he : ∀ c : State, fsmRun 2 (setSt .emit c)
      = andThen (andThen (scanEmit c) scanAck) (fun t => .next (setSt .hunt t)) := by
    intro c
    rw [fsmRun_succ (by simp)]
    have : fsmStep (setSt .emit c) =
        andThen (scanEmit (setSt .emit c)) fun t => .next { t with st := .ack } := rfl
    rw [this, scanEmit_setSt, andThen_assoc, andThen_assoc, andThen_assoc]
    congr 1; funext d
    simp only [andThen_next]
    rw [fsmRun_succ (by simp)]
    have : fsmStep (setSt .ack d) =
        andThen (scanAck (setSt .ack d)) fun t => .next { t with st := .hunt } := rfl
    show andThen (fsmStep (setSt .ack d)) _ = _
    rw [this, scanAck_setSt, andThen_assoc, andThen_assoc]
    rfl
  cases hh0 : scanHdr s with
  | fault r => exact ⟨1, by omega, by rw [hh, hh0, scanIteration, hh0]; rfl⟩
  | refused r => exact ⟨1, by omega, by rw [hh, hh0, scanIteration, hh0]; rfl⟩
  | next h =>
    by_cases hl : lengthOK h = true
    swap
    · exact ⟨1, by omega, by rw [hh, hh0, scanIteration, hh0]; simp [hl, fsmRun]⟩
    cases hc0 : scanCheck h with
    | fault r => exact ⟨2, by omega, by rw [hh, hh0, scanIteration, hh0]; simp [hl, hc, hc0]⟩
    | refused r => exact ⟨2, by omega, by rw [hh, hh0, scanIteration, hh0]; simp [hl, hc, hc0]⟩
    | next c =>
      by_cases hk : crcOK c = true
      · exact ⟨4, by omega, by rw [hh, hh0, scanIteration, hh0]; simp [hl, hc, hc0, hk, he]⟩
      · exact ⟨2, by omega, by
          rw [hh, hh0, scanIteration, hh0]
          simp only [hl, andThen_next, if_true, hc, hc0]
          simp [hk]; rfl⟩

/-- What one transition can do: it writes the scan registers, the buffer, the events and `st`. -/
theorem fsmStep_only {s t : State} (h : fsmStep s = .next t) :
    t = { s with vcrc := t.vcrc, pos := t.pos, len := t.len, lastEnd := t.lastEnd, f1 := t.f1
                 acc := t.acc, buf := t.buf, blen := t.blen, out := t.out, st := t.st } := by
  unfold fsmStep at h
  split at h
  · rw [← next_inj h]
  · split at h
    · obtain ⟨m, hm, h⟩ := andThen_eq_next h
      have := scanHdr_passOnly hm
      rw [← next_inj h]; split_ifs <;> (rw [this]; try rfl)
    · rw [← next_inj h]
  · obtain ⟨m, hm, h⟩ := andThen_eq_next h
    have := scanCheck_passOnly hm
    rw [← next_inj h]; split_ifs <;> (rw [this]; try rfl)
  · obtain ⟨m, hm, h⟩ := andThen_eq_next h
    have := scanEmit_passOnly hm
    rw [← next_inj h, this]
  · obtain ⟨m, hm, h⟩ := andThen_eq_next h
    have := scanAck_passOnly hm
    rw [← next_inj h, this]
  · rw [← next_inj h, scanPrune_only]

/-! ### One step -/

/-- The state machine's own invariant does not read the pulse. -/
theorem passInv_endPulse {s : State} (h : Safety.PassInv s) : Safety.PassInv (endPulse s) := by
  revert h
  unfold Safety.PassInv
  simp only [endPulse_st]
  split
  · exact id
  · exact id
  · exact id
  · rw [show memRead (endPulse s) (endPulse s).pos (endPulse s).len = memRead s s.pos s.len by
      apply memRead_congr <;> rfl]
    exact id
  · exact id
  · exact id

/-- A step is a reset, a command taken in IDLE, a transition, or the wait in IDLE. -/
theorem step_cases (s : State) :
    (∃ p rest, s.pending = .reset p :: rest ∧ step s = .next (acceptReset p rest s)) ∨
    (∃ w now rest, s.st = .idle ∧ s.pending = .command w now :: rest ∧
      step s = exec (decodeWord w) (acceptCommand now rest s)) ∨
    (s.st ≠ .idle ∧ step s = fsmStep (endPulse s)) ∨
    (s.st = .idle ∧ s.pending = [] ∧ step s = .next (endPulse s)) := by
  unfold step
  by_cases hi : s.st = .idle
  · have hr : s.cmdReady = true := by simp [State.cmdReady, hi]
    split
    · next p rest hp => exact .inl ⟨p, rest, hp, rfl⟩
    · next w now rest hp => exact .inr (.inl ⟨w, now, rest, hi, hp, by rw [hr]; rfl⟩)
    · next hp => exact .inr (.inr (.inr ⟨hi, hp, by rw [hr]; rfl⟩))
  · have hr : s.cmdReady = false := by simp [State.cmdReady, hi]
    split
    · next p rest hp => exact .inl ⟨p, rest, hp, rfl⟩
    · exact .inr (.inr (.inl ⟨hi, by rw [hr]; rfl⟩))
    · exact .inr (.inr (.inl ⟨hi, by rw [hr]; rfl⟩))

/-- The encoder's word at the head of what the host presents runs its command. -/
theorem step_cmdAt {s : State} {i : Instr} {now : Nat} {rest : List HostInput}
    (hw : Sys2Proof.Laws.RoundTrip.Statement i) (hi : i.wellFormed = true) (h1 : s.st = .idle)
    (h2 : s.pending = .command (encode i) now :: rest) :
    step s = exec i { s with pending := rest, nowIn := now, crcOutValid := false } := by
  simp [step, h2, h1, State.cmdReady, acceptCommand, endPulse, hw hi]

end Sys2Proof.Machine
end

