-- ==== Sys2Proof/Laws/Pseudo.lean ====
section
/-! SUPPORT. The checked front door for command sequences (spec/30_encoding.md R89, R94): what its two
tests say, and what it can answer. -/

namespace Sys2Proof.Machine

open Sys2Proof.Safety

theorem isReserved_decodeWord (w : CmdWord) : isReserved (decodeWord w) = true ↔ 0x700 ≤ w.toNat := by
  have hop := opcodeOf_toNat w
  have hw := w.isLt
  unfold decodeWord
  generalize (opcodeOf w).toNat = n at hop
  have hn : n < 16 := by omega
  interval_cases n <;> simp only [isReserved, Bool.false_eq_true, false_iff, true_iff] <;> omega

theorem holdsReserved_iff (ins : List HostInput) :
    holdsReserved ins = true ↔ ∃ w now, .command w now ∈ ins ∧ 0x700 ≤ w.toNat := by
  simp only [holdsReserved, List.any_eq_true]
  constructor
  · rintro ⟨x, hx, h⟩
    cases x with
    | command w now => exact ⟨w, now, hx, (isReserved_decodeWord w).1 h⟩
    | reset p => cases h
  · rintro ⟨w, now, hx, h⟩
    exact ⟨_, hx, (isReserved_decodeWord w).2 h⟩

/-- The shape test with a burst open or not: each `RX.BYTE` is the first command of the sequence, with a
burst open, or comes directly after a command that opens or continues one. -/
theorem sourceShaped_iff (opened : Bool) (ins : List HostInput) :
    sourceShaped opened ins = true ↔
      ∀ before w now later, ins = before ++ .command w now :: later → ∀ b, decodeWord w = .rxByte b →
        (before = [] ∧ opened = true) ∨ ∃ v n, before.getLast? = some (.command v n) ∧
          (decodeWord v = .rxOpen ∨ ∃ c, decodeWord v = .rxByte c) := by
  induction ins generalizing opened with
  | nil => simp [sourceShaped]
  | cons x rest ih =>
    -- the sequence behind `x`, whose first command finds a burst open exactly when `x` is of a burst
    have tail : ∀ o : Bool, (o = true ↔ ∃ v n, x = .command v n ∧
          (decodeWord v = .rxOpen ∨ ∃ c, decodeWord v = .rxByte c)) →
        (sourceShaped o rest = true ↔
          ∀ before w now later, rest = before ++ .command w now :: later →
            ∀ b, decodeWord w = .rxByte b → ∃ v n, (x :: before).getLast? = some (.command v n) ∧
              (decodeWord v = .rxOpen ∨ ∃ c, decodeWord v = .rxByte c)) := by
      intro o ho
      rw [ih]
      constructor
      · intro h before w now later he b hb
        obtain ⟨rfl, h1⟩ | h1 := h before w now later he b hb
        · simpa using ho.1 h1
        · cases before with
          | nil => simp at h1
          | cons y ys => simpa [List.getLast?_cons_cons] using h1
      · intro h before w now later he b hb
        cases before with
        | nil => exact .inl ⟨rfl, ho.2 (by simpa using h [] w now later he b hb)⟩
        | cons y ys => exact .inr (by simpa [List.getLast?_cons_cons] using h (y :: ys) w now later he b hb)
    -- the whole sequence: its head, then what stands behind it
    have whole : (∀ before w now later, x :: rest = before ++ .command w now :: later →
          ∀ b, decodeWord w = .rxByte b → (before = [] ∧ opened = true) ∨
            ∃ v n, before.getLast? = some (.command v n) ∧
              (decodeWord v = .rxOpen ∨ ∃ c, decodeWord v = .rxByte c)) ↔
        (∀ w now, x = .command w now → ∀ b, decodeWord w = .rxByte b → opened = true) ∧
        ∀ before w now later, rest = before ++ .command w now :: later →
          ∀ b, decodeWord w = .rxByte b → ∃ v n, (x :: before).getLast? = some (.command v n) ∧
            (decodeWord v = .rxOpen ∨ ∃ c, decodeWord v = .rxByte c) := by
      constructor
      · intro h
        refine ⟨fun w now hx b hb => ?_, fun before w now later he b hb => ?_⟩
        · simpa using h [] w now rest (by rw [hx]; rfl) b hb
        · simpa using h (x :: before) w now later (by rw [he]; rfl) b hb
      · rintro ⟨h1, h2⟩ before w now later he b hb
        cases before with
        | nil =>
          obtain ⟨rfl, rfl⟩ := List.cons.inj he
          exact .inl ⟨rfl, h1 w now rfl b hb⟩
        | cons y ys =>
          obtain ⟨rfl, rfl⟩ := List.cons.inj he
          exact .inr (h2 ys w now later rfl b hb)
    rw [whole]
    cases x with
    | reset p => simpa [sourceShaped] using tail false (by simp)
    | command u m =>
      cases hd : decodeWord u with
      | rxOpen => simpa [sourceShaped, hd] using tail true (by simp [hd])
      | rxByte c => simpa [sourceShaped, hd] using fun _ => tail true (by simp [hd])
      | _ => simpa [sourceShaped, hd] using tail false (by simp [hd])

/-- What the front door can answer. -/
theorem submit_cases (ins : List HostInput) (s : State) :
    (holdsReserved ins = true ∧ submit ins s = .refused .reservedOpcodeInSequence) ∨
    (holdsReserved ins = false ∧ sourceShaped false ins = true ∧
      submit ins s = .next { s with pending := s.pending ++ ins }) ∨
    (holdsReserved ins = false ∧ sourceShaped false ins = false ∧
      submit ins s = .refused .burstShapeBroken) := by
  unfold submit
  cases holdsReserved ins <;> cases sourceShaped false ins <;> simp

end Sys2Proof.Machine
end

