-- ==== Sys2Proof/Tests/Slice0.lean ====
section
/-! SUPPORT. Tests. The expected values are the spec's own: the worked example of the source (S1) and
the vectors of spec/95_test_vectors.md, cited beside each test. -/

namespace Sys2Proof.Tests

open Sys2Proof.Machine Sys2Proof.Safety

/-- The reset state with `bs` in the buffer. -/
def bufferOf (bs : List Byte) : State :=
  { State.reset with buf := bs.zipIdx.map (fun p => (p.2, p.1)), blen := bs.length }

/-- One fact about the next state of an outcome; false of a fault or a refusal. -/
def after (o : Result) (p : State → Bool) : Bool :=
  match o with
  | .next s => p s
  | .fault _ => false
  | .refused _ => false

def frameFA : List Byte := [0x02, 0x0F, 0xAA, 0x55, 0x39, 0xBC]
def frameFB : List Byte := [0x02, 0x25, 0x01, 0x02, 0x93, 0x2D]
def frameFC : List Byte := [0x03, 0x14, 0x10, 0x05, 0x00, 0x83, 0x12]
def frameFG : List Byte :=
  [0x0A, 0x21, 0x10, 0x11, 0x12, 0x13, 0x14, 0x15, 0x16, 0x17, 0x18, 0x19, 0xD6, 0xF6]

/-- `020FAA5539BC` as character codes (section 5). -/
def hexFA : Chars := [0x30, 0x32, 0x30, 0x46, 0x41, 0x41, 0x35, 0x35, 0x33, 0x39, 0x42, 0x43]

/-! ### Well-formedness and decoding (spec/30_encoding.md R86, R87) -/

theorem test_illformed_reserved8F_refused : Instr.wellFormed (.reserved8F 0x7) = false := by decide
theorem test_wellformed_reserved8F : Instr.wellFormed (.reserved8F 0xF) = true := by decide
theorem test_illformed_now_refused :
    HostInput.wellFormed defaultConfig (.command 0x400 0x100000000) = false := by decide
theorem test_illegal_config_refused :
    construct { defaultConfig with maxFrame := 129 } xmodem matches .refused .illegalConfiguration := by
  decide

theorem test_decode_nop : decodeWord 0b000000000000 = .nop := by decide
theorem test_decode_crcRestart : decodeWord 0b000100000000 = .crcRestart := by decide
theorem test_decode_crcAdd : decodeWord 0b001000110001 = .crcAdd 0x31 := by decide
theorem test_decode_crcCalc : decodeWord 0b001100000000 = .crcCalc := by decide
theorem test_decode_rxOpen : decodeWord 0b010000000000 = .rxOpen := by decide
theorem test_decode_rxByte : decodeWord 0b010110111100 = .rxByte 0xBC := by decide
theorem test_decode_scan : decodeWord 0b011000000000 = .scan := by decide
theorem test_decode_reserved7 : decodeWord 0b011100000000 = .reserved7 := by decide
theorem test_decode_reserved8F : decodeWord 0b110100000000 = .reserved8F 0xD := by decide
theorem test_decode_ignores_unused_bits : decodeWord 0b011010100101 = .scan := by decide
theorem test_decode_rejects_bit_12 : decodeTableWord 16 0x1000 = none := by decide

/-! ### CRC engine (section 2) -/

theorem test_rev8 : (rev8 0x31, rev8 0x12, rev8 0xA5) = (0x8C, 0x48, 0xA5) := by decide
theorem test_rev16 : (rev16 0x31C3, rev16 0x1234, rev16 0x00FF) = (0xC38C, 0x2C48, 0xFF00) := by decide
theorem test_crcAdd_80 : crcAddByte xmodem 0x0000 0x80 = 0x9188 := by decide
theorem test_crcAdd_reversed :
    crcAddByte ⟨0x8005, 0, 0, true, true⟩ 0x0000 0x41 = 0x030C := by decide
/-- S1, the source's known vector: "123456789" gives 0x31C3. -/
theorem test_known_vector :
    crc16 xmodem [0x31, 0x32, 0x33, 0x34, 0x35, 0x36, 0x37, 0x38, 0x39] = 0x31C3 := by decide +kernel
theorem test_x25_vector :
    crc16 ⟨0x1021, 0xFFFF, 0xFFFF, true, true⟩
      [0x31, 0x32, 0x33, 0x34, 0x35, 0x36, 0x37, 0x38, 0x39] = 0x906E := by decide +kernel
theorem test_modbus_vector :
    crc16 ⟨0x8005, 0xFFFF, 0x0000, true, true⟩
      [0x31, 0x32, 0x33, 0x34, 0x35, 0x36, 0x37, 0x38, 0x39] = 0x4B37 := by decide +kernel
theorem test_refin_only_vector :
    crc16 ⟨0x1021, 0, 0, true, false⟩
      [0x31, 0x32, 0x33, 0x34, 0x35, 0x36, 0x37, 0x38, 0x39] = 0x9184 := by decide +kernel
theorem test_residue_byte_order :
    (crc16 xmodem frameFA, crc16 xmodem [0x02, 0x0F, 0xAA, 0x55, 0xBC, 0x39]) = (0x0000, 0x2540) := by
  decide +kernel

/-- R101: from `crc = 0x1234` with `E.init = 0xFFFF`. -/
theorem test_crcRestart :
    after (exec .crcRestart
      { State.resetWith defaultConfig ⟨0x1021, 0xFFFF, 0, false, false⟩ with crc := 0x1234 })
      (fun t => t.crc == 0xFFFF) := by decide
/-- Section 2.2: `1021` then byte `10` gives `2100`. -/
theorem test_crcAdd :
    after (exec (.crcAdd 0x10) { State.reset with crc := 0x1021 }) (fun t => t.crc == 0x2100) := by
  decide
/-- P2 line 4: `rev16(0xD2C6) ^ 0xFFFF = 0x9CB4`, and `crc` stays. -/
theorem test_crcCalc :
    after (exec .crcCalc { State.resetWith defaultConfig ⟨0x1021, 0xFFFF, 0xFFFF, true, true⟩ with
      crc := 0xD2C6 }) (fun t => t.crcOut == 0x9CB4 && t.crc == 0xD2C6 && t.crcOutValid) := by decide

/-! ### Frame buffer (section 3) -/

theorem test_rxOpen_gap_50_keeps :
    after (exec .rxOpen { bufferOf [1, 2, 3, 4] with last := 1000, nowIn := 1050 })
      (fun t => t.blen == 4 && t.last == 1050) := by decide
theorem test_rxOpen_gap_51_clears :
    after (exec .rxOpen { bufferOf [1, 2, 3, 4] with last := 1000, nowIn := 1051 })
      (fun t => t.blen == 0 && t.buf == [] && t.last == 1051) := by decide
theorem test_gap_wraps : timeGap 32 0x00000023 0xFFFFFFF0 = 51 := by decide
theorem test_gap_backwards : timeGap 32 99 100 = 0xFFFFFFFF := by decide
/-- R133: `blen = 3`, `RX.BYTE 0x2A`. -/
theorem test_rxByte_appends :
    after (exec (.rxByte 0x2A) (bufferOf [7, 8, 9]))
      (fun t => t.blen == 4 && bufRead t 3 == some 0x2A && bufRead t 2 == some 9) := by decide
/-- R133: the buffer is full, the byte is dropped. -/
theorem test_rxByte_drops :
    after (exec (.rxByte 0x22)
      { bufferOf [7, 8] with cfg := { defaultConfig with bufferSize := 2 } })
      (fun t => t.blen == 2 && t.validPart == [7, 8]) := by decide

/-! ### Frame scanner (section 4) -/

/-- 4.3: FA alone. -/
theorem test_scan_one_frame :
    after (exec .scan (bufferOf frameFA))
      (fun t => t.out == [⟨defaultTopic, hexFA⟩] && t.blen == 0 && t.pos == 6 && t.lastEnd == 6) := by
  decide +kernel
/-- 4.4: `04 ++ FA ++ 00`. -/
theorem test_scan_resynchronises :
    after (exec .scan (bufferOf ([0x04] ++ frameFA ++ [0x00])))
      (fun t => t.out.length == 1 && t.validPart == [0x00]) := by decide +kernel
/-- 4.6: FA, the ACK 1A by the second clause, then FF; the ACK byte is retained. -/
theorem test_scan_retains_ack :
    after (exec .scan (bufferOf (frameFA ++ [0x1A, 0xFF])))
      (fun t => t.validPart == [0x1A, 0xFF] && t.lastEnd == 6) := by decide +kernel
/-- 4.6: the cursor after step 5, with the ACK of FC, and with a byte that is not FB's. -/
theorem test_ack_positions :
    after (andThen (scanEmit { bufferOf (frameFC ++ [0x1A, 0xFF]) with len := 7 }) scanAck)
      (fun t => t.pos == 8) &&
    after (andThen (scanEmit { bufferOf (frameFB ++ [0x1A, 0xFF]) with len := 6 }) scanAck)
      (fun t => t.pos == 6) := by decide
/-- 4.7: FG's length byte is taken as FA's ACK; FG is kept whole. -/
theorem test_scan_length_byte_as_ack :
    after (exec .scan (bufferOf (frameFA ++ frameFG)))
      (fun t => t.out == [⟨defaultTopic, hexFA⟩] && t.validPart == frameFG) := by decide +kernel
/-- 4.5: a correct CRC with an illegal length. -/
theorem test_scan_short_candidate :
    after (exec .scan (bufferOf [0x01, 0x0F, 0x77, 0x29, 0x7E]))
      (fun t => t.out == [] && t.blen == 5) := by decide
/-- 4.8: 33 bytes 80, 81, .. A0: the oldest byte is cut. -/
theorem test_scan_truncates_window :
    after (exec .scan (bufferOf ((List.range 33).map (fun i => BitVec.ofNat 8 (0x80 + i)))))
      (fun t => t.blen == 32 && bufRead t 0 == some 0x81) := by decide
/-- 4.2: `buf[pos] = FF` gives `len = 259`, without a wrap. -/
theorem test_candidate_length_no_wrap : candidateLength 0xFF = 259 := by decide
/-- Section 5. -/
theorem test_hex : hex [0x9F, 0x0A] = [0x39, 0x46, 0x30, 0x41] := by decide
/-- The list decoder on the example of 4.7 with FB behind: FG is lost. -/
theorem test_decodeBytes_loses_frame :
    decodeBytes defaultConfig (frameFA ++ frameFG ++ frameFB) = ([frameFA, frameFB], []) := by decide +kernel

/-! ### Machine (sections 6 and 7) -/

/-- Words of P3 run as the first instruction after reset. -/
theorem test_fetch_runs_first :
    after (step (State.reset.withFetchWord 16 0x5FF)) (fun t => t.validPart == [0xFF]) := by decide
/-- P3 step 2: the expansion of `STEP [02 93 2D 2A], now=1020`. -/
theorem test_expand_step :
    expand defaultConfig (.step [0x02, 0x93, 0x2D, 0x2A] 1020) =
      [.command 0x400 1020, .command 0x502 1020, .command 0x593 1020, .command 0x52D 1020,
        .command 0x52A 1020, .command 0x600 1020] := by decide
/-- Section 7: the first two transitions of the trace. -/
theorem test_fsm_hunt :
    after (fsmRun 2 (beginScan (bufferOf ([0xFF] ++ frameFA))))
      (fun t => t.st == .check && t.pos == 1 && t.len == 6) := by decide
theorem test_submit_refuses_reserved :
    submit [.command 0x700 0] State.reset matches .refused .reservedOpcodeInSequence := by decide
theorem test_pub_stream : pubCycles [0x30, 0x41] = [⟨0x30, true, false⟩, ⟨0x41, false, true⟩] := by
  decide
theorem test_asm_text : asmText (.rxByte 0x2A) 0 = "RX.BYTE 0x2A" := by decide

/-! ### Witnesses: states and operands that meet the hypotheses of the statements -/

theorem next_of_after {o : Result} {p : State → Bool} (h : after o p = true) :
    ∃ t, o = .next t ∧ p t = true := by
  cases o with
  | next t => exact ⟨t, rfl, h⟩
  | fault r => cases h
  | refused r => cases h

/-- FA in the buffer, in the states of a pass over it. -/
def atHunt : State := { bufferOf frameFA with st := .hunt }
def atCheck : State := { bufferOf frameFA with st := .check, len := 6 }
def atEmit : State := { bufferOf frameFA with st := .emit, len := 6 }
def atAck : State :=
  { bufferOf frameFA with st := .ack, len := 6, pos := 6, lastEnd := 6, acc := true, f1 := 0x0F }
def atPrune : State :=
  { bufferOf frameFA with st := .prune, len := 6, pos := 6, lastEnd := 6, acc := true, f1 := 0x0F }

/-- FA published: the one run that the witnesses about `SCAN` share. -/
theorem scan_frameFA : ∃ t, exec .scan (bufferOf frameFA) = .next t ∧
    (t.out == [⟨defaultTopic, hexFA⟩] && t.acc && t.lastEnd == 6) = true :=
  next_of_after (by decide +kernel)

theorem scan_garbage : ∃ t, exec .scan (bufferOf [7, 8, 9]) = .next t ∧ (t.out == []) = true :=
  next_of_after (by decide)

theorem wit_EncodedCommandDecodesAndRuns :
    Instr.wellFormed (.reserved8F 0x8) = true ∧ Instr.wellFormed (.crcAdd 0xFF) = true := by decide

theorem wit_EveryWordMatchesOneOpcodeLine :
    (∃ r ∈ opcodeMap, r.covers 0xFFF = true) ∧ decodeWord 0x2FF = .crcAdd 0xFF ∧
      decodeWord 0x500 = .rxByte 0x00 ∧ (0x6A5 : CmdWord).toNat / 256 = (0x600 : CmdWord).toNat / 256 ∧
      (0x6A5 : CmdWord).toNat / 256 ≠ 2 ∧ (0x6A5 : CmdWord).toNat / 256 ≠ 5 := by decide

theorem wit_StepRunsDecodedCommand :
    ({ State.reset with pending := [.command 0x5FF 3, .command 0x600 4] } : State).st = .idle ∧
      ({ State.reset with pending := [.command 0x5FF 3, .command 0x600 4] } : State).pending =
        .command 0x5FF 3 :: [.command 0x600 4] ∧ 0xFFF < 2 ^ 12 := by decide

theorem wit_IdleWithoutCommandWaits : State.reset.st = .idle ∧ State.reset.pending = [] := by decide

theorem wit_BusyMachineTakesNoCommand :
    ({ atCheck with pending := [.command 0x600 4] } : State).st ≠ .idle ∧
      (∀ p rest, ({ atCheck with pending := [.command 0x600 4] } : State).pending ≠
        .reset p :: rest) ∧
      ∃ t, step { atHunt with pending := [.command 0x600 4] } = .next t := by
  refine ⟨by decide, ?_, ⟨_, rfl⟩⟩
  intro p rest h
  cases h

theorem wit_ResetMeetsInvariant :
    defaultConfig.Legal ∧ Config.Legal ⟨0, 1, 1, 1, 1, [], true⟩ := by decide

theorem wit_ResetAbandonsThePass :
    ({ atEmit with pending := [.reset xmodem] } : State).pending = .reset xmodem :: [] := by decide

theorem wit_ConstructionRefusesIllegalConfiguration :
    (defaultConfig.minFrame ≤ defaultConfig.maxFrame ∧
      defaultConfig.maxFrame ≤ defaultConfig.bufferSize ∧ 1 ≤ defaultConfig.bufferSize ∧
      defaultConfig.readTimeout < 2 ^ defaultConfig.timeW ∧ 1 ≤ defaultConfig.timeW) ∧
    ¬ Config.Legal { defaultConfig with minFrame := 33 } ∧
    ¬ Config.Legal { defaultConfig with readTimeout := 2 ^ 32 } := by decide

theorem wit_CrcAddInExactArithmetic :
    (∀ k, k < 8 → (0x8C : Byte).getLsbD k = if true then (0x31 : Byte).getLsbD (7 - k)
      else (0x31 : Byte).getLsbD k) ∧
    (∀ k, k < 8 → (0x31 : Byte).getLsbD k = if State.reset.e.refin then (0x31 : Byte).getLsbD (7 - k)
      else (0x31 : Byte).getLsbD k) ∧
    State.reset.crc = 0 ∧ (State.resetWith defaultConfig ⟨0, 1, 0, true, false⟩).e.poly = 0 ∧
    (⟨0x1021, 1, 2, true, false⟩ : CrcParams).poly = (⟨0x1021, 3, 4, true, true⟩ : CrcParams).poly ∧
    (⟨0x1021, 1, 2, true, false⟩ : CrcParams).refin = (⟨0x1021, 3, 4, true, true⟩ : CrcParams).refin := by
  decide

theorem wit_CrcCalcPutsResultOnPort :
    ∃ t, andThen (exec .crcRestart State.reset) (exec .crcCalc) = .next t := ⟨_, rfl⟩

theorem wit_Crc16CommandsComputeMessageCrc :
    let s : State := { State.reset with pending := expand defaultConfig (.crc16 [0x31, 0x32]) }
    s.st = .idle ∧ s.pending = expand s.cfg (.crc16 [0x31, 0x32]) ++ [] := by decide

/-- The gaps 50 and 51 and the greatest one, on either side of the strict test. -/
theorem wit_RxOpenTestsTheGap :
    let s : State := { bufferOf [1] with last := 1000, nowIn := 1050 }
    let t : State := { bufferOf [1] with last := 1000, nowIn := 1051 }
    let u : State := { bufferOf [1] with last := 1000, nowIn := 999 }
    (50 < 2 ^ s.cfg.timeW ∧ (50 : Int) % 2 ^ 32 = (s.nowIn - s.last : Int) % 2 ^ 32 ∧
      50 ≤ s.cfg.readTimeout) ∧
    (51 < 2 ^ t.cfg.timeW ∧ (51 : Int) % 2 ^ 32 = (t.nowIn - t.last : Int) % 2 ^ 32 ∧
      t.cfg.readTimeout < 51) ∧
    (4294967295 < 2 ^ u.cfg.timeW ∧
      (4294967295 : Int) % 2 ^ 32 = (u.nowIn - u.last : Int) % 2 ^ 32 ∧
      u.cfg.readTimeout < 4294967295) := by decide

theorem wit_TimeGapIsModular :
    255 < 2 ^ 8 ∧ (255 : Int) % 2 ^ 8 = ((254 : Int) - 255) % 2 ^ 8 ∧ 0 < 2 ^ 8 := by decide

/-- One byte below capacity, and at capacity. -/
theorem wit_RxByteAppendsOrDrops :
    let s : State := { bufferOf [7] with cfg := { defaultConfig with bufferSize := 2 } }
    let t : State := { bufferOf [7, 8] with cfg := { defaultConfig with bufferSize := 2 } }
    s.BufOk ∧ s.blen < s.cfg.bufferSize ∧ t.BufOk ∧ t.cfg.bufferSize ≤ t.blen := by decide

/-- The buffer is cleared (gap 4294967295), it is kept (gap 50), and it is kept and overflows. -/
theorem wit_IngestClosedForm :
    let s : State := { bufferOf [7, 8] with pending := expand defaultConfig (.ingest [9] 4294967295) }
    let t : State := { bufferOf [7, 8] with pending := expand defaultConfig (.ingest [9] 50) }
    let c : Config := { defaultConfig with minFrame := 3, maxFrame := 3, bufferSize := 3 }
    let u : State := { bufferOf [7, 8] with cfg := c, pending := expand c (.ingest [9, 10] 50) }
    (s.BufOk ∧ s.blen ≤ s.cfg.bufferSize ∧ 4294967295 < 2 ^ s.cfg.timeW ∧ s.st = .idle ∧
      s.pending = expand s.cfg (.ingest [9] 4294967295) ++ [] ∧
      s.cfg.readTimeout < timeGap s.cfg.timeW 4294967295 s.last) ∧
    (t.BufOk ∧ t.blen ≤ t.cfg.bufferSize ∧ 50 < 2 ^ t.cfg.timeW ∧ t.st = .idle ∧
      t.pending = expand t.cfg (.ingest [9] 50) ++ [] ∧
      ¬ t.cfg.readTimeout < timeGap t.cfg.timeW 50 t.last) ∧
    (u.BufOk ∧ u.blen ≤ u.cfg.bufferSize ∧ 50 < 2 ^ u.cfg.timeW ∧ u.st = .idle ∧
      u.pending = expand u.cfg (.ingest [9, 10] 50) ++ [] ∧
      ¬ u.cfg.readTimeout < timeGap u.cfg.timeW 50 u.last ∧
      u.cfg.bufferSize < u.blen + 2) := by decide

theorem wit_TimestampUnobservableOnEmptyBuffer : State.reset.BufOk ∧ State.reset.blen = 0 := by decide

/-- A candidate that ends with the buffer, and one that runs past it by a byte. -/
theorem wit_ScanHdrComputesLength :
    (bufRead atHunt atHunt.pos = some 0x02 ∧ atHunt.st = .hunt ∧ atHunt.cfg.minFrame ≤ 2 + 4 ∧
      2 + 4 ≤ atHunt.cfg.maxFrame ∧ atHunt.pos + (2 + 4) ≤ atHunt.blen) ∧
    (bufRead { bufferOf [3, 0, 0, 0, 0, 0] with st := .hunt } 0 = some 0x03 ∧
      ¬ 0 + (3 + 4) ≤ (bufferOf [3, 0, 0, 0, 0, 0]).blen) := by decide

theorem wit_ScanCheckIsFreshXmodem :
    atCheck.BufOk ∧ atCheck.pos + atCheck.len ≤ atCheck.blen ∧ atCheck.st = .check := by decide

/-- The residues of FA and of FA with its CRC bytes exchanged. -/
theorem wit_residues :
    crc16 xmodem frameFA = 0 ∧ crc16 xmodem [0x02, 0x0F, 0xAA, 0x55, 0xBC, 0x39] ≠ 0 := by
  decide +kernel

theorem wit_ScanEmitPublishesAndAdvances :
    atEmit.BufOk ∧ atEmit.pos + atEmit.len ≤ atEmit.blen ∧ 4 ≤ atEmit.len ∧ atEmit.st = .emit := by
  decide

/-- Both clauses of the match, a byte that is no ACK, and the end of the buffer. -/
theorem wit_ScanAckSkipsOneMatchingByte :
    let s : State := { bufferOf [0x2A] with f1 := 0x25 }
    let t : State := { bufferOf [0x1A] with f1 := 0x0F }
    let u : State := { bufferOf [0x1A] with f1 := 0x25 }
    (s.pos < s.blen ∧ bufRead s s.pos = some 0x2A ∧
      (0x2A : Byte).toNat = s.f1.toNat / 16 * 16 + 10) ∧
    (t.pos < t.blen ∧ bufRead t t.pos = some 0x1A ∧ t.f1.toNat = 15 ∧ (0x1A : Byte).toNat = 26) ∧
    (u.pos < u.blen ∧ bufRead u u.pos = some 0x1A ∧
      ¬ ((0x1A : Byte).toNat = u.f1.toNat / 16 * 16 + 10 ∨
        u.f1.toNat = 15 ∧ (0x1A : Byte).toNat = 26)) ∧
    atAck.blen ≤ atAck.pos ∧ atAck.st = .ack := by decide

theorem wit_scanAck_next : ∃ t, scanAck atAck = .next t := ⟨_, rfl⟩

/-- A pass that accepted, one byte above the window, and exactly the window. -/
theorem wit_ScanPruneKeepsASuffix :
    let c : Config := { defaultConfig with minFrame := 2, maxFrame := 2 }
    let s : State := { bufferOf [1, 2, 3] with cfg := c }
    let t : State := { bufferOf [1, 2] with cfg := c }
    (atPrune.BufOk ∧ atPrune.lastEnd ≤ atPrune.blen ∧ atPrune.acc = true) ∧
    (s.BufOk ∧ s.lastEnd ≤ s.blen ∧ s.acc = false ∧ s.cfg.maxFrame < s.blen) ∧
    (t.BufOk ∧ t.lastEnd ≤ t.blen ∧ t.acc = false ∧ t.blen ≤ t.cfg.maxFrame) := by decide

/-- For ScanCompletes, ScanComputesTheDecoder, ScanFrame, OnlyValidFramesArePublished,
FramesOfAPassFitTheBuffer, StateMachineRefinesScan. -/
theorem wit_scan_hypotheses : (bufferOf frameFA).BufOk ∧ (bufferOf frameFA).st = .idle ∧
    ∃ t, exec .scan (bufferOf frameFA) = .next t :=
  ⟨by decide, by decide, scan_frameFA.imp fun _ h => h.1⟩

theorem wit_RoundTripWithGarbage :
    let s := bufferOf ([0x00] ++ frameFA ++ [0xFF])
    s.BufOk ∧ [0x0F, 0xAA, 0x55].length = (0x02 : Byte).toNat + 1 ∧
      s.cfg.minFrame ≤ (0x02 : Byte).toNat + 4 ∧ (0x02 : Byte).toNat + 4 ≤ s.cfg.maxFrame ∧
      frameFA = [0x02, 0x0F, 0xAA, 0x55] ++
        [(crc16 xmodem [0x02, 0x0F, 0xAA, 0x55]).extractLsb' 8 8,
          (crc16 xmodem [0x02, 0x0F, 0xAA, 0x55]).extractLsb' 0 8] ∧
      s.validPart = [0x00] ++ frameFA ++ [0xFF] ∧
      (∀ k, k < 1 → frameAtHead s.cfg (([0x00] ++ frameFA ++ [0xFF]).drop k) = none) ∧
      (∀ k, k < 1 → frameAtHead s.cfg ([0xFF].drop k) = none) := by decide +kernel

theorem wit_FruitlessScanTruncatesOnly : (bufferOf [7, 8, 9]).BufOk ∧
    ∃ t, exec .scan (bufferOf [7, 8, 9]) = .next t ∧ t.out = (bufferOf [7, 8, 9]).out := by
  obtain ⟨t, h1, h2⟩ := scan_garbage
  exact ⟨by decide, t, h1, show t.out = [] by simpa using h2⟩

theorem wit_AckByteIsSkippedInTheSamePass :
    let s : State := { bufferOf (frameFA ++ [0x1A]) with len := 6 }
    s.BufOk ∧ 4 ≤ s.len ∧ s.pos + s.len < s.blen ∧ bufRead s (s.pos + 1) = some 0x0F ∧
      bufRead s (s.pos + s.len) = some 0x1A ∧ (0x0F : Byte).toNat = 15 ∧ (0x1A : Byte).toNat = 26 := by
  decide

theorem wit_LengthByteTakenAsAck :
    let s := bufferOf (frameFA ++ frameFG)
    s.BufOk ∧ s.validPart = frameFA ++ frameFG ∧
      frameAtHead s.cfg (frameFA ++ frameFG) = some frameFA.length ∧
      frameAtHead s.cfg frameFG = some frameFG.length ∧ ackLength frameFA frameFG = 1 ∧
      (∀ k, k < frameFG.length → 1 ≤ k → frameAtHead s.cfg (frameFG.drop k) = none) := by
  decide +kernel

/-- FA whole, then the first three bytes of a second frame. -/
theorem wit_IncompleteFrameSurvivesThePass :
    let s := bufferOf (frameFA ++ [0x02, 0x25, 0x01])
    s.BufOk ∧ s.validPart = frameFA ++ 0x02 :: [0x25, 0x01] ∧
      (0x02 :: [0x25, 0x01] : List Byte).length < (0x02 : Byte).toNat + 4 ∧
      (0x02 : Byte).toNat + 4 ≤ s.cfg.maxFrame ∧
      after (exec .scan s) (fun t => t.out != s.out && decide (t.lastEnd ≤ frameFA.length)) = true := by
  decide +kernel

theorem wit_HexLaws : ([0x9F, 0x0A] : List Byte)[1]? = some 0x0A := by decide

/-- The invariant in every state of the state machine, with the step each takes. -/
theorem wit_inv_idle : Inv (bufferOf frameFA) := ⟨by decide, by decide, by decide, by decide, trivial⟩
theorem wit_inv_hunt : Inv atHunt :=
  ⟨by decide, by decide, by decide, by decide, show ScanRange _ by unfold ScanRange; decide⟩
theorem wit_inv_check : Inv atCheck :=
  ⟨by decide, by decide, by decide, by decide, show ScanRange _ ∧ CandidateHeld _ by
    unfold ScanRange CandidateHeld; decide⟩
theorem wit_inv_emit : Inv atEmit :=
  ⟨by decide, by decide, by decide, by decide,
    show ScanRange _ ∧ CandidateHeld _ ∧ (memRead _ _ _).map _ = _ by
      refine ⟨by unfold ScanRange; decide, by unfold CandidateHeld; decide, ?_⟩
      exact congrArg some wit_residues.1⟩
theorem wit_inv_ack : Inv atAck :=
  ⟨by decide, by decide, by decide, by decide, show ScanRange _ ∧ _ by unfold ScanRange; decide⟩
theorem wit_inv_prune : Inv atPrune :=
  ⟨by decide, by decide, by decide, by decide, show ScanRange _ ∧ _ by unfold ScanRange; decide⟩

/-- For StepKeepsInvariant and PublishedSequenceOnlyGrows: each of those states takes a step. -/
theorem wit_steps :
    (∃ t, step atHunt = .next t) ∧ (∃ t, step atCheck = .next t) ∧ (∃ t, step atEmit = .next t) ∧
      (∃ t, step atAck = .next t) ∧ (∃ t, step atPrune = .next t) ∧
      ∃ t, step { bufferOf frameFA with pending := [.command 0x5FF 0] } = .next t :=
  ⟨⟨_, rfl⟩, ⟨_, rfl⟩, ⟨_, rfl⟩, ⟨_, rfl⟩, ⟨_, rfl⟩, ⟨_, rfl⟩⟩

/-- For EachRegisterHasItsWriters: a command that writes each of the registers it speaks of. -/
theorem wit_EachRegisterHasItsWriters :
    after (exec (.crcAdd 0x10) State.reset) (fun t => t.crc != 0) &&
    after (exec .crcCalc State.reset) (fun t => t.crcOutValid) &&
    after (exec .rxOpen { State.reset with nowIn := 7 }) (fun t => t.last != 0) &&
    after (exec (.rxByte 1) State.reset) (fun t => t.blen != 0) = true := by decide

theorem wit_ScanRegistersAreUnobservable :
    forget atAck = forget { bufferOf frameFA with st := .ack } ∧
      atAck ≠ { bufferOf frameFA with st := .ack } := by decide

/-- For SilentConditionsDriveTheHandling: X1a, X1b and X1c met at the bytes next to the legal lengths. -/
theorem wit_X1 :
    let s : State := { bufferOf [1, 0, 0, 0, 0, 0] with st := .hunt }
    let t : State := { bufferOf (0x1D :: List.replicate 32 0) with st := .hunt }
    let u : State := { bufferOf [3, 0, 0, 0, 0, 0] with st := .hunt }
    (s.st = .hunt ∧ s.pos < s.blen ∧ bufRead s s.pos = some 0x01 ∧
      after (scanHdr s) (fun x => hdrConditions x == [.x1a]) = true) ∧
    (t.st = .hunt ∧ t.pos < t.blen ∧ bufRead t t.pos = some 0x1D ∧
      after (scanHdr t) (fun x => hdrConditions x == [.x1b]) = true) ∧
    (u.st = .hunt ∧ u.pos < u.blen ∧ bufRead u u.pos = some 0x03 ∧
      after (scanHdr u) (fun x => hdrConditions x == [.x1c]) = true) := by decide

/-- X3, X4 and X5 met at the boundary of each test, and not met one below it. -/
theorem wit_X3_X4_X5 :
    let s : State := { bufferOf [7] with cfg := { defaultConfig with bufferSize := 1 } }
    let t : State := { bufferOf [7] with cfg := { defaultConfig with maxFrame := 0 } }
    rxByteConditions s = [.x3] ∧ s.blen ≤ s.cfg.bufferSize ∧ rxByteConditions (bufferOf [7]) = [] ∧
      rxOpenConditions { bufferOf [7] with nowIn := 51 } = [.x4] ∧ 51 < 2 ^ (bufferOf [7]).cfg.timeW ∧
      rxOpenConditions { bufferOf [7] with nowIn := 50 } = [] ∧
      t.BufOk ∧ pruneConditions t = [.x5] ∧
      pruneConditions { bufferOf [7] with cfg := { defaultConfig with maxFrame := 1 } } = [] := by decide

theorem wit_X2 :
    let s : State := { bufferOf [0x02, 0x0F, 0xAA, 0x55, 0xBC, 0x39] with st := .check, len := 6 }
    s.st = .check ∧ s.BufOk ∧ s.pos + s.len ≤ s.blen ∧
      after (scanCheck s) (fun t => checkConditions t == [.x2]) = true := by decide +kernel

theorem wit_FrontDoor_reserved :
    0x700 ≤ (0x700 : CmdWord).toNat ∧ 0x700 ≤ (0xFFF : CmdWord).toNat := by decide

/-- The words of `RX.OPEN` and `RX.BYTE` in their order: a burst, with no reserved opcode. -/
theorem wit_FrontDoor_unbroken :
    (∀ x ∈ [HostInput.command 0x400 0, .command 0x52A 0],
      ∀ w now, x = .command w now → w.toNat < 0x700) ∧
    BurstsUnbroken [.command 0x400 0, .command 0x52A 0] := by
  constructor
  · intro x hx w now h
    subst h
    simp only [List.mem_cons, HostInput.command.injEq, List.not_mem_nil, or_false] at hx
    obtain ⟨rfl, -⟩ | ⟨rfl, -⟩ := hx <;> decide
  · intro before w now later h b hb
    match before, h with
    | [], h =>
      obtain ⟨⟨rfl, -⟩, -⟩ : ((0x400 : CmdWord) = w ∧ 0 = now) ∧ _ := by simpa using h
      cases hb
    | [_], h =>
      obtain ⟨rfl, -⟩ := List.cons.inj h
      exact ⟨0x400, 0, rfl, .inl rfl⟩
    | _ :: _ :: _, h => simp at h

/-- An `RX.BYTE` behind a `SCAN` breaks the burst. -/
theorem wit_FrontDoor_broken :
    (0x400 : CmdWord).toNat < 0x700 ∧ (0x600 : CmdWord).toNat < 0x700 ∧
    (0x52A : CmdWord).toNat < 0x700 ∧
    ¬ BurstsUnbroken [.command 0x400 0, .command 0x600 0, .command 0x52A 0] := by
  refine ⟨by decide, by decide, by decide, fun h => ?_⟩
  obtain ⟨v, n, hl, hv⟩ := h [.command 0x400 0, .command 0x600 0] 0x52A 0 [] rfl 0x2A rfl
  obtain ⟨rfl, -⟩ : (0x600 : CmdWord) = v ∧ 0 = n := by simpa using hl
  obtain hv | ⟨c, hv⟩ := hv <;> cases hv

/-- The front door's answer to that sequence (R94). -/
theorem test_submit_refuses_broken_burst :
    submit [.command 0x400 0, .command 0x600 0, .command 0x52A 0] State.reset matches
      .refused .burstShapeBroken := by decide

theorem wit_StepExpansion :
    defaultConfig.emptyStepOpens = false ∧
      ({ defaultConfig with emptyStepOpens := true } : Config).emptyStepOpens = true := by decide

end Sys2Proof.Tests
end

section

namespace Sys2Proof.Machine

/-! ### construct: one equation per side of spec/00_scope.md R11 -/

theorem construct_of_legal {c : Config} (h : c.Legal) (p : CrcParams) :
    construct c p = .next (State.resetWith c p) :=
  if_pos h

theorem construct_of_not_legal {c : Config} (h : ¬ c.Legal) (p : CrcParams) :
    construct c p = .refused .illegalConfiguration :=
  if_neg h

/-- Settles O10: the constraints listed are `Config.Legal`, on which `construct` branches. -/
theorem constructionRefusesIllegalConfiguration :
    Obligations.ConstructionRefusesIllegalConfiguration := fun _ p =>
  ⟨fun legal => construct_of_legal legal p, fun illegal => construct_of_not_legal illegal p⟩

end Sys2Proof.Machine
end

section
/-! The state between commands: its values after reset, and the timestamp of an empty buffer
(spec/10_state.md R37, R38). -/

namespace Sys2Proof.Machine

open Sys2Proof.Safety

/-! ### What the state machine's invariant says in each of its states -/

theorem passInv_of_idle {s : State} (h : s.st = .idle) : PassInv s := by
  simp [PassInv, h]

theorem passInv_iff_of_hunt {s : State} (h : s.st = .hunt) : PassInv s ↔ ScanRange s := by
  simp [PassInv, h]

theorem passInv_iff_of_check {s : State} (h : s.st = .check) :
    PassInv s ↔ ScanRange s ∧ CandidateHeld s := by
  simp [PassInv, h]

theorem passInv_iff_of_emit {s : State} (h : s.st = .emit) :
    PassInv s ↔ ScanRange s ∧ CandidateHeld s ∧
      (memRead s s.pos s.len).map (crc16 xmodem) = some 0 := by
  simp [PassInv, h]

theorem passInv_iff_of_ack {s : State} (h : s.st = .ack) :
    PassInv s ↔ ScanRange s ∧ s.lastEnd = s.pos ∧ s.acc = true ∧ s.len ≤ s.lastEnd ∧
      bufRead s (s.lastEnd - s.len + 1) = some s.f1 := by
  simp [PassInv, h]

theorem passInv_iff_of_prune {s : State} (h : s.st = .prune) :
    PassInv s ↔ ScanRange s ∧ s.pos = s.blen := by
  simp [PassInv, h]

/-! ### After reset -/

theorem bufRead_resetWith (c : Config) (p : CrcParams) (i : Nat) :
    bufRead (State.resetWith c p) i = none :=
  bufRead_of_le (Nat.zero_le i)

/-- Settles O7: each value stands in `State.resetWith`; the empty valid part has no cell to read. -/
theorem resetValues : Obligations.ResetValues :=
  ⟨fun c p => ⟨rfl, rfl, rfl, rfl, bufRead_resetWith c p, rfl, rfl, rfl, rfl, rfl⟩, rfl⟩

/-- An empty buffer, a zero timestamp and IDLE meet the invariant of any legal configuration. -/
theorem inv_resetWith {c : Config} (h : c.Legal) (p : CrcParams) : Inv (State.resetWith c p) :=
  ⟨h, rfl, Nat.zero_le _, Nat.two_pow_pos _, passInv_of_idle rfl⟩

theorem defaultConfig_legal : defaultConfig.Legal := by decide

/-- Settles O8: the reset state meets the invariant, and the constants of R10 are legal. -/
theorem resetMeetsInvariant : Obligations.ResetMeetsInvariant :=
  ⟨fun _ p legal => inv_resetWith legal p, inv_resetWith defaultConfig_legal xmodem⟩

/-! ### An empty buffer -/

/-- A gapless buffer of length 0 lists no cell, so clearing it changes nothing. -/
theorem clearBuffer_of_empty {s : State} (h : s.BufOk) (h0 : s.blen = 0) : clearBuffer s = s := by
  have hbuf : s.buf = [] := by simpa [State.BufOk, h0] using h
  rw [clearBuffer, ← hbuf, ← h0]

/-- On an empty buffer `RX.OPEN` only takes the timestamp, timed out or not
(spec/41_frame_buffer.md R137). -/
theorem execRxOpen_of_empty {s : State} (h : s.BufOk) (h0 : s.blen = 0) :
    execRxOpen s = .next { s with last := nowPort s } := by
  rw [execRxOpen, clearBuffer_of_empty h h0, ite_self]

/-- Settles O24: both answers only replace `last`, by the same reading. -/
theorem timestampUnobservableOnEmptyBuffer : Obligations.TimestampUnobservableOnEmptyBuffer := by
  intro s l hbuf h0
  calc execRxOpen { s with last := l }
      = .next { s with last := nowPort s } := execRxOpen_of_empty (s := { s with last := l }) hbuf h0
    _ = execRxOpen s := (execRxOpen_of_empty hbuf h0).symm

end Sys2Proof.Machine
end

section
/-! Which registers a command may write, and what every command keeps of the buffer
(spec/10_state.md R20 to R30). -/

namespace Sys2Proof.Machine

open Sys2Proof.Safety

/-- The registers a command may write: `t` is `s` with new values in those alone. -/
def WritesOnly (s t : State) : Instr → Prop
  | .nop | .reserved7 | .reserved8F _ => t = s
  | .crcRestart | .crcAdd _ => ∃ c, t = { s with crc := c }
  | .crcCalc => ∃ c, t = { s with crcOut := c, crcOutValid := true }
  | .rxOpen => ∃ m n, t = { s with buf := m, blen := n, last := nowPort s }
  | .rxByte _ => ∃ m n, t = { s with buf := m, blen := n }
  | .scan => ∃ m n o v p l e b a, t = { s with
      buf := m, blen := n, out := o, vcrc := v, pos := p, len := l, lastEnd := e, f1 := b, acc := a }

theorem execRxOpen_writesOnly {s t : State} (h : execRxOpen s = .next t) :
    WritesOnly s t .rxOpen := by
  rw [← next_inj h]
  split
  · exact ⟨_, _, rfl⟩
  · exact ⟨_, _, rfl⟩

theorem execRxByte_writesOnly {b : Byte} {s t : State} (h : execRxByte b s = .next t) :
    WritesOnly s t (.rxByte b) := by
  rw [← next_inj h]
  split
  · exact ⟨_, _, rfl⟩
  · exact ⟨_, _, rfl⟩

theorem execScan_writesOnly {s t : State} (h : execScan s = .next t) : WritesOnly s t .scan := by
  obtain ⟨m, -, hm, rfl⟩ := execScan_next h
  exact ⟨_, _, _, _, _, _, _, _, _, by rw [scanPrune_only, hm]⟩

theorem exec_writesOnly {i : Instr} {s t : State} (h : exec i s = .next t) : WritesOnly s t i := by
  cases i with
  | nop | reserved7 | reserved8F => exact (next_inj h).symm
  | crcRestart | crcAdd | crcCalc => exact ⟨_, (next_inj h).symm⟩
  | rxOpen => exact execRxOpen_writesOnly h
  | rxByte b => exact execRxByte_writesOnly h
  | scan => exact execScan_writesOnly h

/-- What no command writes (spec/10_state.md R30, R31). -/
theorem WritesOnly.frame {i : Instr} {s t : State} (h : WritesOnly s t i) :
    t.cfg = s.cfg ∧ t.e = s.e ∧ t.st = s.st ∧ t.nowIn = s.nowIn ∧ t.pending = s.pending ∧
      t.delivered = s.delivered := by
  cases i with
  | nop | reserved7 | reserved8F => rw [show t = s from h]; simp
  | crcRestart | crcAdd | crcCalc => obtain ⟨_, rfl⟩ := h; simp
  | rxOpen | rxByte => obtain ⟨_, _, rfl⟩ := h; simp
  | scan => obtain ⟨_, _, _, _, _, _, _, _, _, rfl⟩ := h; simp

/-- Settles O45: a register outside a command's own has its old value. -/
theorem eachRegisterHasItsWriters : Obligations.EachRegisterHasItsWriters := by
  intro i s t h
  have hw := exec_writesOnly h
  refine ⟨hw.frame, ?_⟩
  cases i with
  | nop | reserved7 | reserved8F => rw [show t = s from hw]; simp
  | crcRestart | crcAdd | crcCalc => obtain ⟨_, rfl⟩ := hw; simp
  | rxOpen | rxByte => obtain ⟨_, _, rfl⟩ := hw; simp
  | scan => obtain ⟨_, _, _, _, _, _, _, _, _, rfl⟩ := hw; simp

/-! ### The buffer -/

theorem scanPrune_blen_le (s : State) : (scanPrune s).blen ≤ s.blen := by
  rw [scanPrune_blen]; exact Nat.sub_le _ _

/-- Every command keeps the buffer gapless and within its capacity (spec/41_frame_buffer.md R135). -/
theorem exec_keeps_buffer {i : Instr} {s t : State} (h : exec i s = .next t) (hbuf : s.BufOk)
    (hcap : s.blen ≤ s.cfg.bufferSize) : t.BufOk ∧ t.blen ≤ s.cfg.bufferSize := by
  cases i with
  | nop | reserved7 | reserved8F | crcRestart | crcAdd | crcCalc =>
    rw [← next_inj h]; exact ⟨hbuf, hcap⟩
  | rxOpen =>
    rw [← next_inj h]
    split
    · exact ⟨bufOk_clearBuffer s, Nat.zero_le _⟩
    · exact ⟨hbuf, hcap⟩
  | rxByte b =>
    rw [← next_inj h]
    split
    · next hroom => exact ⟨bufOk_appendByte hbuf b, of_decide_eq_true hroom⟩
    · exact ⟨hbuf, hcap⟩
  | scan =>
    obtain ⟨m, -, hm, rfl⟩ := execScan_next h
    exact ⟨scanPrune_bufOk (hm.bufOk hbuf), (scanPrune_blen_le m).trans (hm.blen ▸ hcap)⟩

theorem nowPort_lt (s : State) : nowPort s < 2 ^ s.cfg.timeW := Nat.mod_lt _ (Nat.two_pow_pos _)

/-- `RX.OPEN` alone writes the timestamp, and it writes a reading of the port. -/
theorem WritesOnly.last_lt {i : Instr} {s t : State} (h : WritesOnly s t i)
    (hlast : s.last < 2 ^ s.cfg.timeW) : t.last < 2 ^ s.cfg.timeW := by
  cases i with
  | nop | reserved7 | reserved8F => rwa [show t = s from h]
  | crcRestart | crcAdd | crcCalc => obtain ⟨_, rfl⟩ := h; exact hlast
  | rxOpen => obtain ⟨_, _, rfl⟩ := h; exact nowPort_lt s
  | rxByte => obtain ⟨_, _, rfl⟩ := h; exact hlast
  | scan => obtain ⟨_, _, _, _, _, _, _, _, _, rfl⟩ := h; exact hlast

/-- A command, run whole in IDLE, keeps the invariant. -/
theorem exec_keeps_inv {i : Instr} {s t : State} (h : exec i s = .next t) (hidle : s.st = .idle)
    (hs : Inv s) : Inv t := by
  obtain ⟨hlegal, hbuf, hcap, hlast, -⟩ := hs
  obtain ⟨hcfg, -, hst, -⟩ := (exec_writesOnly h).frame
  obtain ⟨hbuf', hcap'⟩ := exec_keeps_buffer h hbuf hcap
  refine ⟨hcfg ▸ hlegal, hbuf', hcfg ▸ hcap', ?_, passInv_of_idle (hst.trans hidle)⟩
  rw [hcfg]; exact (exec_writesOnly h).last_lt hlast

end Sys2Proof.Machine
end

section
/-! The transitions of the state machine one state at a time, and the invariant of a pass
(spec/10_state.md R37, spec/44_step_fsm.md R221). -/

namespace Sys2Proof.Machine

open Sys2Proof.Safety

/-! ### What a transition answers -/

theorem fsmStep_next_of_hunt {s t : State} (hst : s.st = .hunt) (h : fsmStep s = .next t) :
    (s.pos < s.blen ∧ ∃ a, scanHdr s = .next a ∧
      (lengthOK a = true ∧ t = { a with st := .check } ∨ t = reject a)) ∨
    (s.blen ≤ s.pos ∧ t = { s with st := .prune }) := by
  simp only [fsmStep, hst] at h
  split at h
  · next hp =>
    obtain ⟨a, ha, h⟩ := andThen_eq_next h
    refine .inl ⟨hp, a, ha, ?_⟩
    split at h
    · next hl => exact .inl ⟨hl, (next_inj h).symm⟩
    · exact .inr (next_inj h).symm
  · next hp => exact .inr ⟨Nat.not_lt.1 hp, (next_inj h).symm⟩

theorem fsmStep_next_of_check {s t : State} (hst : s.st = .check) (h : fsmStep s = .next t) :
    ∃ c, scanCheck s = .next c ∧
      (crcOK c = true ∧ t = { c with st := .emit } ∨ t = { reject c with st := .hunt }) := by
  simp only [fsmStep, hst] at h
  obtain ⟨c, hc, h⟩ := andThen_eq_next h
  refine ⟨c, hc, ?_⟩
  split at h
  · next hk => exact .inl ⟨hk, (next_inj h).symm⟩
  · exact .inr (next_inj h).symm

theorem fsmStep_next_of_emit {s t : State} (hst : s.st = .emit) (h : fsmStep s = .next t) :
    ∃ d, scanEmit s = .next d ∧ t = { d with st := .ack } := by
  simp only [fsmStep, hst] at h
  obtain ⟨d, hd, h⟩ := andThen_eq_next h
  exact ⟨d, hd, (next_inj h).symm⟩

theorem fsmStep_next_of_ack {s t : State} (hst : s.st = .ack) (h : fsmStep s = .next t) :
    ∃ d, scanAck s = .next d ∧ t = { d with st := .hunt } := by
  simp only [fsmStep, hst] at h
  obtain ⟨d, hd, h⟩ := andThen_eq_next h
  exact ⟨d, hd, (next_inj h).symm⟩

theorem fsmStep_next_of_prune {s t : State} (hst : s.st = .prune) (h : fsmStep s = .next t) :
    t = { scanPrune s with st := .idle } := by
  simp only [fsmStep, hst] at h
  exact (next_inj h).symm

theorem fsmStep_next_of_idle {s t : State} (hst : s.st = .idle) (h : fsmStep s = .next t) :
    t = s := by
  simp only [fsmStep, hst] at h
  exact (next_inj h).symm

/-- A transition leaves the buffer alone, or it is the prune. -/
theorem fsmStep_buffer {s t : State} (h : fsmStep s = .next t) :
    (t.buf = s.buf ∧ t.blen = s.blen) ∨ (t.buf = (scanPrune s).buf ∧ t.blen = (scanPrune s).blen) := by
  cases hst : s.st with
  | idle => rw [fsmStep_next_of_idle hst h]; simp
  | hunt =>
    obtain ⟨-, a, ha, ⟨-, rfl⟩ | rfl⟩ | ⟨-, rfl⟩ := fsmStep_next_of_hunt hst h
    · exact .inl ⟨(scanHdr_passOnly ha).buf, (scanHdr_passOnly ha).blen⟩
    · exact .inl ⟨(scanHdr_passOnly ha).buf, (scanHdr_passOnly ha).blen⟩
    · exact .inl ⟨rfl, rfl⟩
  | check =>
    obtain ⟨c, hc, ⟨-, rfl⟩ | rfl⟩ := fsmStep_next_of_check hst h
    · exact .inl ⟨(scanCheck_passOnly hc).buf, (scanCheck_passOnly hc).blen⟩
    · exact .inl ⟨(scanCheck_passOnly hc).buf, (scanCheck_passOnly hc).blen⟩
  | emit =>
    obtain ⟨d, hd, rfl⟩ := fsmStep_next_of_emit hst h
    exact .inl ⟨(scanEmit_passOnly hd).buf, (scanEmit_passOnly hd).blen⟩
  | ack =>
    obtain ⟨d, hd, rfl⟩ := fsmStep_next_of_ack hst h
    exact .inl ⟨(scanAck_passOnly hd).buf, (scanAck_passOnly hd).blen⟩
  | prune => rw [fsmStep_next_of_prune hst h]; exact .inr ⟨rfl, rfl⟩

theorem fsmStep_keeps_buffer {s t : State} (h : fsmStep s = .next t) (hbuf : s.BufOk) :
    t.BufOk ∧ t.blen ≤ s.blen := by
  unfold State.BufOk
  obtain ⟨h1, h2⟩ | ⟨h1, h2⟩ := fsmStep_buffer h
  · rw [h1, h2]; exact ⟨hbuf, le_rfl⟩
  · rw [h1, h2]; exact ⟨scanPrune_bufOk hbuf, scanPrune_blen_le s⟩

/-! ### The scan registers in a pass -/

/-- A reject keeps the cursor within the valid part. -/
theorem scanRange_reject {s : State} (h : ScanRange s) (hp : s.pos < s.blen) :
    ScanRange (reject s) := by
  obtain ⟨hend, -, hacc⟩ := h
  exact ⟨Nat.le_succ_of_le hend, hp, hacc⟩

/-- A held candidate has the overhead's four bytes at least, and ends within the valid part. -/
theorem candidateHeld_bounds {s : State} (h : CandidateHeld s) :
    4 ≤ s.len ∧ s.pos + s.len ≤ s.blen := by
  obtain ⟨hp, hlen, hok⟩ := h
  obtain ⟨b, -, hb⟩ := Option.map_eq_some_iff.1 hlen
  obtain ⟨-, -, hfit⟩ := (lengthOK_iff s).1 hok
  simp only [candidateLength, frameOverhead] at hb
  omega

theorem passInv_step_hunt {s t : State} (hst : s.st = .hunt) (h : fsmStep s = .next t)
    (hs : PassInv s) : PassInv t := by
  rw [passInv_iff_of_hunt hst] at hs
  obtain ⟨hp, a, ha, hr⟩ | ⟨hp, rfl⟩ := fsmStep_next_of_hunt hst h
  · obtain ⟨b, hb, rfl⟩ := scanHdr_next ha
    obtain ⟨hl, rfl⟩ | rfl := hr
    · exact (passInv_iff_of_check rfl).2 ⟨hs, hp, congrArg (Option.map candidateLength) hb, hl⟩
    · have hrange : ScanRange (reject { s with len := candidateLength b }) := scanRange_reject hs hp
      have hhunt : (reject { s with len := candidateLength b }).st = .hunt := hst
      exact (passInv_iff_of_hunt hhunt).2 hrange
  · exact (passInv_iff_of_prune rfl).2 ⟨hs, Nat.le_antisymm hs.2.1 hp⟩

theorem passInv_step_check {s t : State} (hst : s.st = .check) (h : fsmStep s = .next t)
    (hs : PassInv s) : PassInv t := by
  obtain ⟨hrange, hheld⟩ := (passInv_iff_of_check hst).1 hs
  obtain ⟨c, hc, hr⟩ := fsmStep_next_of_check hst h
  obtain ⟨bs, hbs, rfl⟩ := scanCheck_next hc
  obtain ⟨hk, rfl⟩ | rfl := hr
  · refine (passInv_iff_of_emit rfl).2 ⟨hrange, hheld, ?_⟩
    have hzero : crc16 xmodem bs = 0 := by simpa [crcOK, crc16] using hk
    have hread : (memRead s s.pos s.len).map (crc16 xmodem) = some 0 := by
      rw [hbs, Option.map_some, hzero]
    rw [← hread]
    congr 1
    apply memRead_congr <;> rfl
  · exact (passInv_iff_of_hunt rfl).2 (scanRange_reject hrange hheld.1)

theorem passInv_step_emit {s t : State} (hst : s.st = .emit) (h : fsmStep s = .next t)
    (hs : PassInv s) : PassInv t := by
  obtain ⟨-, hheld, -⟩ := (passInv_iff_of_emit hst).1 hs
  obtain ⟨hlen, hfit⟩ := candidateHeld_bounds hheld
  obtain ⟨d, hd, rfl⟩ := fsmStep_next_of_emit hst h
  obtain ⟨bs, b, -, hb, rfl⟩ := scanEmit_next hd
  have hpos : 0 < s.pos + s.len := by omega
  have hrange : s.pos + s.len ≤ s.pos + s.len ∧ s.pos + s.len ≤ s.blen ∧
      (true = true ↔ 0 < s.pos + s.len) := ⟨le_rfl, hfit, by simp [hpos]⟩
  have hf1 : bufRead s (s.pos + s.len - s.len + 1) = some b := by rwa [Nat.add_sub_cancel]
  exact (passInv_iff_of_ack rfl).2 ⟨hrange, rfl, rfl, Nat.le_add_left _ _, hf1⟩

theorem passInv_step_ack {s t : State} (hst : s.st = .ack) (h : fsmStep s = .next t)
    (hs : PassInv s) : PassInv t := by
  obtain ⟨hrange, -⟩ := (passInv_iff_of_ack hst).1 hs
  obtain ⟨d, hd, rfl⟩ := fsmStep_next_of_ack hst h
  refine (passInv_iff_of_hunt rfl).2 ?_
  obtain rfl | ⟨hp, rfl⟩ := scanAck_next hd
  · exact hrange
  · exact scanRange_reject hrange hp

theorem fsmStep_keeps_passInv {s t : State} (h : fsmStep s = .next t) (hs : PassInv s) :
    PassInv t := by
  cases hst : s.st with
  | idle => rwa [fsmStep_next_of_idle hst h]
  | hunt => exact passInv_step_hunt hst h hs
  | check => exact passInv_step_check hst h hs
  | emit => exact passInv_step_emit hst h hs
  | ack => exact passInv_step_ack hst h hs
  | prune => rw [fsmStep_next_of_prune hst h]; exact passInv_of_idle rfl

/-! ### Every step -/

theorem fsmStep_keeps_inv {s t : State} (h : fsmStep s = .next t) (hs : Inv s) : Inv t := by
  obtain ⟨hlegal, hbuf, hcap, hlast, hpass⟩ := hs
  obtain ⟨hbuf', hle⟩ := fsmStep_keeps_buffer h hbuf
  have hcfg : t.cfg = s.cfg := by rw [fsmStep_only h]
  have hlast' : t.last = s.last := by rw [fsmStep_only h]
  unfold Safety.Inv
  rw [hcfg, hlast']
  exact ⟨hlegal, hbuf', hle.trans hcap, hlast, fsmStep_keeps_passInv h hpass⟩

theorem inv_endPulse {s : State} (h : Inv s) : Inv (endPulse s) := by
  obtain ⟨hlegal, hbuf, hcap, hlast, hpass⟩ := h
  exact ⟨hlegal, hbuf, hcap, hlast, passInv_endPulse hpass⟩

theorem inv_acceptCommand {s : State} (h : Inv s) (hidle : s.st = .idle) (now : Nat)
    (rest : List HostInput) : Inv (acceptCommand now rest s) := by
  obtain ⟨hlegal, hbuf, hcap, hlast, -⟩ := h
  exact ⟨hlegal, hbuf, hcap, hlast, passInv_of_idle hidle⟩

theorem inv_acceptReset {s : State} (h : s.cfg.Legal) (p : CrcParams) (rest : List HostInput) :
    Inv (acceptReset p rest s) :=
  inv_resetWith h p

/-- Settles O43, by the cases of a step: a reset, a command run whole in IDLE, a transition of the state
machine, the wait in IDLE. -/
theorem stepKeepsInvariant : Obligations.StepKeepsInvariant := by
  intro s t hs h
  obtain ⟨p, rest, -, heq⟩ | ⟨w, now, rest, hidle, -, heq⟩ | ⟨-, heq⟩ | ⟨-, -, heq⟩ := step_cases s <;>
    rw [heq] at h
  · rw [← next_inj h]; exact inv_acceptReset hs.1 p rest
  · exact exec_keeps_inv h hidle (inv_acceptCommand hs hidle now rest)
  · exact fsmStep_keeps_inv h (inv_endPulse hs)
  · rw [← next_inj h]; exact inv_endPulse hs

end Sys2Proof.Machine
end

section
/-! The published events (spec/10_state.md R29): `SCAN.EMIT` appends one, and nothing but a reset takes
any out of `out`. -/

namespace Sys2Proof.Machine

open Sys2Proof.Safety

/-! ### The micro-operations and the pass -/

theorem scanHdr_out {s t : State} (h : scanHdr s = .next t) : t.out = s.out := by
  obtain ⟨b, -, rfl⟩ := scanHdr_next h; rfl

theorem scanCheck_out {s t : State} (h : scanCheck s = .next t) : t.out = s.out := by
  obtain ⟨bs, -, rfl⟩ := scanCheck_next h; rfl

theorem scanEmit_out {s t : State} (h : scanEmit s = .next t) : s.out <+: t.out := by
  obtain ⟨bs, b, -, -, rfl⟩ := scanEmit_next h; exact List.prefix_append _ _

theorem scanAck_out {s t : State} (h : scanAck s = .next t) : t.out = s.out := by
  obtain rfl | ⟨-, rfl⟩ := scanAck_next h <;> rfl

theorem scanPrune_out (s : State) : (scanPrune s).out = s.out := by rw [scanPrune_only]

theorem scanIteration_out {s t : State} (h : scanIteration s = .next t) : s.out <+: t.out := by
  obtain ⟨a, ha, ⟨-, rfl⟩ | ⟨c, -, hc, ⟨-, rfl⟩ | ⟨d, -, hd, ht⟩⟩⟩ := scanIteration_next h
  · rw [reject_out, scanHdr_out ha]
  · rw [reject_out, scanCheck_out hc, scanHdr_out ha]
  · rw [scanAck_out ht, ← scanHdr_out ha, ← scanCheck_out hc]; exact scanEmit_out hd

theorem execScan_out {s t : State} (h : execScan s = .next t) : s.out <+: t.out := by
  obtain ⟨m, hm, -, rfl⟩ := execScan_next h
  rw [scanPrune_out]
  exact scanLoop_induct (P := fun u => s.out <+: u.out) (s := startPass s)
    (fun _ _ hu _ hi => hu.trans (scanIteration_out hi)) (List.prefix_refl _) hm

/-! ### Commands, transitions, steps -/

/-- A command only extends `out`: `SCAN` does, and the others leave it. -/
theorem exec_out {i : Instr} {s t : State} (h : exec i s = .next t) : s.out <+: t.out := by
  by_cases hi : i = .scan
  · subst hi; exact execScan_out h
  · obtain ⟨-, -, -, -, -, hscan⟩ := eachRegisterHasItsWriters i s t h
    have hout : t.out = s.out := by
      by_contra hne; exact hi (hscan (.inl hne))
    rw [hout]

theorem fsmStep_out {s t : State} (h : fsmStep s = .next t) : s.out <+: t.out := by
  cases hst : s.st with
  | idle => rw [fsmStep_next_of_idle hst h]
  | hunt =>
    obtain ⟨-, a, ha, ⟨-, rfl⟩ | rfl⟩ | ⟨-, rfl⟩ := fsmStep_next_of_hunt hst h
    · show s.out <+: a.out; rw [scanHdr_out ha]
    · rw [reject_out, scanHdr_out ha]
    · exact List.prefix_refl _
  | check =>
    obtain ⟨c, hc, ⟨-, rfl⟩ | rfl⟩ := fsmStep_next_of_check hst h
    · show s.out <+: c.out; rw [scanCheck_out hc]
    · show s.out <+: c.out; rw [scanCheck_out hc]
  | emit =>
    obtain ⟨d, hd, rfl⟩ := fsmStep_next_of_emit hst h
    show s.out <+: d.out; exact scanEmit_out hd
  | ack =>
    obtain ⟨d, hd, rfl⟩ := fsmStep_next_of_ack hst h
    show s.out <+: d.out; rw [scanAck_out hd]
  | prune =>
    rw [fsmStep_next_of_prune hst h]
    show s.out <+: (scanPrune s).out; rw [scanPrune_out]

/-- With the same events delivered before the last reset, the whole sequence grows as `out` does. -/
theorem published_prefix {s t : State} (hd : t.delivered = s.delivered) (ho : s.out <+: t.out) :
    s.delivered ++ s.out <+: t.delivered ++ t.out := by
  rw [hd]; exact (List.prefix_append_right_inj _).2 ho

/-- Settles O46, by the cases of a step; a reset moves `out` behind `delivered`. -/
theorem publishedSequenceOnlyGrows : Obligations.PublishedSequenceOnlyGrows := by
  intro s t h
  obtain ⟨p, rest, -, heq⟩ | ⟨w, now, rest, -, -, heq⟩ | ⟨-, heq⟩ | ⟨-, -, heq⟩ := step_cases s <;>
    rw [heq] at h
  · rw [← next_inj h]; exact ⟨by simp, rfl⟩
  · obtain ⟨hcfg, -, -, -, -, hdel⟩ := (exec_writesOnly h).frame
    have hout : s.out <+: t.out := exec_out (s := acceptCommand now rest s) h
    exact ⟨published_prefix hdel hout, hcfg⟩
  · have hdel : t.delivered = s.delivered := by rw [fsmStep_only h]; rfl
    have hcfg : t.cfg = s.cfg := by rw [fsmStep_only h]; rfl
    have hout : s.out <+: t.out := fsmStep_out (s := endPulse s) h
    exact ⟨published_prefix hdel hout, hcfg⟩
  · rw [← next_inj h]; exact ⟨List.prefix_refl _, rfl⟩

end Sys2Proof.Machine
end

section
/-! The scan registers between commands (spec/10_state.md R22, R26). A pass starts with `pos`, `lastEnd`
and `acc` set (R151) and with old values in `len`, `vcrc` and `f1`; `SCAN.HDR`, `SCAN.CHECK` and
`SCAN.EMIT` write these three before anything reads them. So two passes that differ there go the same
way, and the set of registers in which they may differ shrinks from one micro-operation to the next. -/

namespace Sys2Proof.Machine

open Sys2Proof.Safety

/-! ### Outcomes that agree -/

/-- The same outcome, with next states that `R` relates. -/
inductive ResultRel (R : State → State → Prop) : Result → Result → Prop
  | next {s t : State} (h : R s t) : ResultRel R (.next s) (.next t)
  | fault (r : Fault) : ResultRel R (.fault r) (.fault r)
  | refused (r : Refusal) : ResultRel R (.refused r) (.refused r)

theorem ResultRel.andThen {R Q : State → State → Prop} {o o' : Result} {f : State → Result}
    (h : ResultRel R o o') (hf : ∀ s t, R s t → ResultRel Q (f s) (f t)) :
    ResultRel Q (andThen o f) (andThen o' f) := by
  cases h with
  | next hst => exact hf _ _ hst
  | fault r => exact .fault r
  | refused r => exact .refused r

theorem ResultRel.refl {R : State → State → Prop} (hR : ∀ s, R s s) (o : Result) :
    ResultRel R o o := by
  cases o with
  | next s => exact .next (hR s)
  | fault r => exact .fault r
  | refused r => exact .refused r

theorem ResultRel.forgetResult_eq {o o' : Result}
    (h : ResultRel (fun s t => forget s = forget t) o o') : forgetResult o = forgetResult o' := by
  cases h with
  | next hst => exact congrArg Host.Outcome.next hst
  | fault r => rfl
  | refused r => rfl

/-! ### One pass from states that differ in `len`, `vcrc` and `f1` -/

def SameButF1 (s t : State) : Prop := ∃ b, t = { s with f1 := b }

def SameButVcrcF1 (s t : State) : Prop := ∃ v b, t = { s with vcrc := v, f1 := b }

def SameButLenVcrcF1 (s t : State) : Prop := ∃ l v b, t = { s with len := l, vcrc := v, f1 := b }

theorem SameButLenVcrcF1.refl (s : State) : SameButLenVcrcF1 s s := ⟨_, _, _, rfl⟩

/-- `SCAN.HDR` writes `len` and reads none of the three. -/
theorem scanHdr_rel {s t : State} (h : SameButLenVcrcF1 s t) :
    ResultRel SameButVcrcF1 (scanHdr s) (scanHdr t) := by
  obtain ⟨l, v, b, rfl⟩ := h
  cases hb : bufRead s s.pos with
  | some x =>
    rw [scanHdr_of_read hb, scanHdr_of_read (s := { s with len := l, vcrc := v, f1 := b }) hb]
    exact .next ⟨v, b, rfl⟩
  | none =>
    have hfault : ∀ u : State, bufRead u u.pos = none → scanHdr u = .fault (.readOutsideValid u.pos) := by
      intro u hu; simp [scanHdr, hu]
    rw [hfault s hb, hfault { s with len := l, vcrc := v, f1 := b } hb]
    exact .fault _

/-- `SCAN.CHECK` writes `vcrc` and reads neither it nor `f1`. -/
theorem scanCheck_rel {s t : State} (h : SameButVcrcF1 s t) :
    ResultRel SameButF1 (scanCheck s) (scanCheck t) := by
  obtain ⟨v, b, rfl⟩ := h
  have hread : memRead { s with vcrc := v, f1 := b } s.pos s.len = memRead s s.pos s.len := by
    apply memRead_congr <;> rfl
  simp only [scanCheck, hread]
  cases memRead s s.pos s.len with
  | some bs => exact .next ⟨b, rfl⟩
  | none => exact .fault _

/-- `SCAN.EMIT` writes `f1` and does not read it. -/
theorem scanEmit_eq {s t : State} (h : SameButF1 s t) : scanEmit s = scanEmit t := by
  obtain ⟨b, rfl⟩ := h
  have hread : memRead { s with f1 := b } s.pos s.len = memRead s s.pos s.len := by
    apply memRead_congr <;> rfl
  have hread1 : bufRead { s with f1 := b } (s.pos + 1) = bufRead s (s.pos + 1) := rfl
  simp only [scanEmit, hread, hread1, publish]

theorem scanIteration_rel {s t : State} (h : SameButLenVcrcF1 s t) :
    ResultRel SameButLenVcrcF1 (scanIteration s) (scanIteration t) := by
  refine (scanHdr_rel h).andThen fun a a' ha => ?_
  have hlen : lengthOK a' = lengthOK a := by obtain ⟨v, b, rfl⟩ := ha; rfl
  rw [hlen]
  split
  · refine (scanCheck_rel ha).andThen fun c c' hc => ?_
    have hcrc : crcOK c' = crcOK c := by obtain ⟨b, rfl⟩ := hc; rfl
    rw [hcrc, scanEmit_eq hc]
    split
    · exact .refl .refl _
    · obtain ⟨b, rfl⟩ := hc; exact .next ⟨_, _, b, rfl⟩
  · obtain ⟨v, b, rfl⟩ := ha; exact .next ⟨_, v, b, rfl⟩

theorem scanLoop_rel (n : Nat) {s t : State} (h : SameButLenVcrcF1 s t) :
    ResultRel SameButLenVcrcF1 (scanLoop n s) (scanLoop n t) := by
  induction n generalizing s t with
  | zero => exact .next h
  | succ n ih =>
    have hguard : t.pos < t.blen ↔ s.pos < s.blen := by obtain ⟨l, v, b, rfl⟩ := h; rfl
    simp only [scanLoop, hguard]
    split
    · exact (scanIteration_rel h).andThen fun _ _ => ih
    · exact .next h

/-- `SCAN.PRUNE` reads none of the three. -/
theorem forget_scanPrune_eq {s t : State} (h : SameButLenVcrcF1 s t) :
    forget (scanPrune s) = forget (scanPrune t) := by
  obtain ⟨l, v, b, rfl⟩ := h
  unfold scanPrune
  split
  · rfl
  · split
    · rfl
    · rfl

/-! ### Every command -/

theorem execScan_forget (s : State) :
    forgetResult (execScan s) = forgetResult (execScan (forget s)) := by
  have hstart : SameButLenVcrcF1 (startPass s) (startPass (forget s)) := ⟨0, 0, 0, rfl⟩
  have hpass : ResultRel (fun s t => forget s = forget t) (execScan s) (execScan (forget s)) :=
    (scanLoop_rel s.blen hstart).andThen fun _ _ h => .next (forget_scanPrune_eq h)
  exact hpass.forgetResult_eq

/-- What a command answers, up to the scan registers, it answers from the state without them. -/
theorem exec_forget (i : Instr) (s : State) :
    forgetResult (exec i s) = forgetResult (exec i (forget s)) := by
  cases i with
  | nop | reserved7 | reserved8F | crcRestart | crcAdd | crcCalc => rfl
  | rxOpen =>
    have htime : timedOut (forget s) = timedOut s := rfl
    simp only [exec, execRxOpen, htime]
    split <;> rfl
  | rxByte b =>
    have hroom : hasRoom (forget s) = hasRoom s := rfl
    simp only [exec, execRxByte, hroom]
    split <;> rfl
  | scan => exact execScan_forget s

/-- Settles O47: both states answer as the state without the scan registers does. -/
theorem scanRegistersAreUnobservable : Obligations.ScanRegistersAreUnobservable := by
  intro i s t h
  rw [exec_forget i s, h, ← exec_forget i t]

end Sys2Proof.Machine
end

section
/-! The command word (spec/30_encoding.md R86 to R90): its two fields, the opcode map, and what a step does
with a word that is presented. -/

namespace Sys2Proof.Machine

/-! ### Reading a number as a command word -/

theorem decodeTableWord_of_lt (nbits : Nat) {w : Nat} (h : w < 2 ^ 12) :
    decodeTableWord nbits w = some (decodeWord (BitVec.ofNat 12 w)) := by
  rw [decodeTableWord, decodeNumber, if_pos h]

theorem decodeTableWord_toNat (nbits : Nat) (w : CmdWord) :
    decodeTableWord nbits w.toNat = some (decodeWord w) := by
  rw [decodeTableWord_of_lt nbits w.isLt, BitVec.ofNat_toNat, BitVec.setWidth_eq]

/-- Settles O1: the decoder, run on each of the nine words. -/
theorem opcodeMapWordsDecode : Obligations.OpcodeMapWordsDecode :=
  ⟨rfl, rfl, rfl, rfl, rfl, rfl, rfl, rfl, rfl⟩

/-! ### The encoder's words -/

/-- The round trip of every command, from those of its constructors. -/
theorem decodeWord_encode {i : Instr} (h : i.wellFormed = true) : decodeWord (encode i) = i := by
  cases i with
  | nop => exact Laws.RoundTrip.nop h
  | crcRestart => exact Laws.RoundTrip.crcRestart h
  | crcAdd b => exact Laws.RoundTrip.crcAdd b h
  | crcCalc => exact Laws.RoundTrip.crcCalc h
  | rxOpen => exact Laws.RoundTrip.rxOpen h
  | rxByte b => exact Laws.RoundTrip.rxByte b h
  | scan => exact Laws.RoundTrip.scan h
  | reserved7 => exact Laws.RoundTrip.reserved7 h
  | reserved8F op => exact Laws.RoundTrip.reserved8F op h

/-! ### A word at the command port -/

/-- In IDLE the command at the head of what the host presents is accepted and run (R221). -/
theorem step_of_command {s : State} {w : CmdWord} {now : Nat} {rest : List HostInput}
    (hidle : s.st = .idle) (hp : s.pending = .command w now :: rest) :
    step s = exec (decodeWord w) (acceptCommand now rest s) := by
  simp only [step, hp, (cmdReady_eq_true s).2 hidle, if_true]

/-- Taking a presented word from the queue leaves the state as it was before, in IDLE and with the pulse
over. -/
theorem step_withFetchWord (s : State) (nbits w : Nat) :
    step (s.withFetchWord nbits w) =
      exec (decodeWord (BitVec.ofNat 12 w)) { s with st := .idle, crcOutValid := false } :=
  step_of_command (s := presentWord (BitVec.ofNat 12 w) s) rfl rfl

theorem step_withFetchWord_toNat (s : State) (nbits : Nat) (w : CmdWord) :
    step (s.withFetchWord nbits w.toNat) =
      exec (decodeWord w) { s with st := .idle, crcOutValid := false } := by
  rw [step_withFetchWord, BitVec.ofNat_toNat, BitVec.setWidth_eq]

/-- Settles O2: the round trip of the word, in the decoder and behind the command port. -/
theorem encodedCommandDecodesAndRuns : Obligations.EncodedCommandDecodesAndRuns := by
  intro i hi
  refine ⟨?_, fun s => ?_⟩
  · rw [decodeTableWord_toNat, decodeWord_encode hi]
  · rw [step_withFetchWord_toNat, decodeWord_encode hi]

/-- Settles O4: a step in IDLE takes the word and runs it, whoever presented it. -/
theorem stepRunsDecodedCommand : Obligations.StepRunsDecodedCommand :=
  ⟨fun _ _ _ _ hidle hp => step_of_command hidle hp,
    fun s nbits w hw => ⟨_, decodeTableWord_of_lt nbits hw, step_withFetchWord s nbits w⟩⟩

/-! ### One representative word per opcode: the word with operand zero -/

/-- The word of an opcode with every operand bit zero. -/
def opcodeWord (op : BitVec 4) : CmdWord := packWord op 0

theorem packWord_fields (w : CmdWord) : packWord (opcodeOf w) (operandOf w) = w := by
  apply BitVec.eq_of_toNat_eq
  rw [packWord, BitVec.toNat_append, ← Nat.shiftLeft_add_eq_or_of_lt (operandOf w).isLt,
    Nat.shiftLeft_eq, opcodeOf_toNat, operandOf_toNat]
  omega

/-- A mask without operand bits sees the opcode alone. -/
theorem packWord_and_opcodeWord (op m : BitVec 4) (b : Byte) :
    packWord op b &&& opcodeWord m = opcodeWord op &&& opcodeWord m := by
  rw [opcodeWord, opcodeWord, packWord, packWord, packWord, BitVec.and_append, BitVec.and_append]
  simp

/-- No line of the opcode map looks at an operand bit (R87). -/
theorem opcodeMap_mask {r : OpcodeRow} (h : r ∈ opcodeMap) : r.mask = opcodeWord (opcodeOf r.mask) := by
  revert r; decide

theorem covers_eq_covers_opcodeWord {r : OpcodeRow} (h : r ∈ opcodeMap) (w : CmdWord) :
    r.covers w = r.covers (opcodeWord (opcodeOf w)) := by
  rw [OpcodeRow.covers, OpcodeRow.covers, opcodeMap_mask h, ← packWord_and_opcodeWord _ _ (operandOf w),
    packWord_fields]

/-- The decoder by opcode: two opcodes take the operand byte, the others ignore it (R88, R90). -/
theorem decodeWord_cases (w : CmdWord) :
    (opcodeOf w = 2 ∧ decodeWord w = .crcAdd (operandOf w)) ∨
    (opcodeOf w = 5 ∧ decodeWord w = .rxByte (operandOf w)) ∨
    (opcodeOf w ≠ 2 ∧ opcodeOf w ≠ 5 ∧ decodeWord w = decodeWord (opcodeWord (opcodeOf w))) := by
  by_cases h2 : opcodeOf w = 2
  · exact .inl ⟨h2, by simp [decodeWord, h2]⟩
  by_cases h5 : opcodeOf w = 5
  · exact .inr (.inl ⟨h5, by simp [decodeWord, h5]⟩)
  refine .inr (.inr ⟨h2, h5, ?_⟩)
  have h2' : (opcodeOf w).toNat ≠ 2 := fun h => h2 (BitVec.eq_of_toNat_eq h)
  have h5' : (opcodeOf w).toNat ≠ 5 := fun h => h5 (BitVec.eq_of_toNat_eq h)
  simp only [decodeWord, opcodeWord, opcodeOf_packWord]
  split
  case h_3 h => exact absurd h h2'
  case h_6 h => exact absurd h h5'
  all_goals rfl

/-- An opcode other than the two decodes to a command without operand byte. -/
theorem decodeWord_opcodeWord_ne {op : BitVec 4} (h2 : op ≠ 2) (h5 : op ≠ 5) (b : Byte) :
    decodeWord (opcodeWord op) ≠ .crcAdd b ∧ decodeWord (opcodeWord op) ≠ .rxByte b := by
  have hn : (decodeWord (opcodeWord op)).mnemonic ≠ "CRC.ADD" ∧
      (decodeWord (opcodeWord op)).mnemonic ≠ "RX.BYTE" := by
    revert op; decide
  exact ⟨fun h => hn.1 (by rw [h]; rfl), fun h => hn.2 (by rw [h]; rfl)⟩

theorem operand_of_decodeWord {w : CmdWord} {b : Byte}
    (h : decodeWord w = .crcAdd b ∨ decodeWord w = .rxByte b) : b = operandOf w := by
  obtain ⟨-, hd⟩ | ⟨-, hd⟩ | ⟨h2, h5, hd⟩ := decodeWord_cases w
  · rw [hd] at h; simpa [eq_comm] using h
  · rw [hd] at h; simpa [eq_comm] using h
  · rw [hd] at h
    obtain ⟨hadd, hbyte⟩ := decodeWord_opcodeWord_ne h2 h5 b
    exact absurd h (not_or.2 ⟨hadd, hbyte⟩)

theorem mnemonic_decodeWord (w : CmdWord) :
    (decodeWord w).mnemonic = (decodeWord (opcodeWord (opcodeOf w))).mnemonic := by
  obtain ⟨hop, hd⟩ | ⟨hop, hd⟩ | ⟨-, -, hd⟩ := decodeWord_cases w
  · rw [hd, hop]; rfl
  · rw [hd, hop]; rfl
  · rw [hd]

theorem wellFormed_decodeWord (w : CmdWord) : (decodeWord w).wellFormed = true := by
  obtain ⟨-, hd⟩ | ⟨-, hd⟩ | ⟨-, -, hd⟩ := decodeWord_cases w
  · rw [hd]; rfl
  · rw [hd]; rfl
  · have hall : ∀ op, (decodeWord (opcodeWord op)).wellFormed = true := by decide
    rw [hd]; exact hall _

/-- R87 on the sixteen representatives. -/
theorem opcodeWord_matches_one_line (op : BitVec 4) :
    ∃ r ∈ opcodeMap, r.covers (opcodeWord op) = true ∧
      (∀ q ∈ opcodeMap, q.covers (opcodeWord op) = true → q = r) ∧
      (decodeWord (opcodeWord op)).mnemonic = r.mnemonic := by
  revert op; decide

/-- Settles O3: the opcode map and the decoder see a word's opcode, of which there are sixteen, and
beyond it at most the operand byte. -/
theorem everyWordMatchesOneOpcodeLine : Obligations.EveryWordMatchesOneOpcodeLine := by
  refine ⟨fun w => ?_, fun w b h => ?_, fun v w hop h2 h5 => ?_, wellFormed_decodeWord⟩
  · obtain ⟨r, hr, hcov, huniq, hmn⟩ := opcodeWord_matches_one_line (opcodeOf w)
    refine ⟨r, hr, ?_, fun q hq hqw => huniq q hq ?_, ?_⟩
    · rw [covers_eq_covers_opcodeWord hr, hcov]
    · rw [← covers_eq_covers_opcodeWord hq, hqw]
    · rw [mnemonic_decodeWord, hmn]
  · rw [operand_of_decodeWord h, operandOf_toNat]
  · rw [← opcodeOf_toNat, ← opcodeOf_toNat] at hop
    rw [← opcodeOf_toNat] at h2 h5
    replace hop := BitVec.eq_of_toNat_eq hop
    obtain ⟨hv, -⟩ | ⟨hv, -⟩ | ⟨hv2, hv5, hv⟩ := decodeWord_cases v
    · exact absurd (congrArg BitVec.toNat hv) h2
    · exact absurd (congrArg BitVec.toNat hv) h5
    · obtain ⟨hw, -⟩ | ⟨hw, -⟩ | ⟨-, -, hw⟩ := decodeWord_cases w
      · exact absurd (hop.trans hw) hv2
      · exact absurd (hop.trans hw) hv5
      · rw [hv, hw, hop]

end Sys2Proof.Machine
end

section
/-! The whole command `SCAN` as the decoder over byte sequences, and what the decoder's frames are
(spec/42_frame_scanner.md R150, R165; spec/43_hex_publish.md R194, R199). -/

namespace Sys2Proof.Safety

open Sys2Proof.Machine

theorem decodeBytes_frames (c : Config) (bs : List Byte) :
    (decodeBytes c bs).1 = (decodeFrom c bs.length 0 bs).1 := by
  unfold decodeBytes; split <;> rename_i h <;> rw [h]

/-- The decoder drops the bytes before the last end offset, or all but `MAX_FRAME_LENGTH` of them. -/
theorem decodeBytes_kept (c : Config) (bs : List Byte) :
    (decodeBytes c bs).2 =
      bs.drop ((decodeFrom c bs.length 0 bs).2.getD (bs.length - c.maxFrame)) := by
  unfold decodeBytes; split <;> rename_i h <;> rw [h] <;> rfl

/-- A frame of the decoder is a run of the bytes whose first byte gives its length, of a legal length and
with residue zero (spec/30_encoding.md R74). -/
theorem decodeBytes_frame_in_bytes {c : Config} {bs f : List Byte} (h : f ∈ (decodeBytes c bs).1) :
    ∃ p b, bs[p]? = some b ∧ c.minFrame ≤ b.toNat + 4 ∧ b.toNat + 4 ≤ c.maxFrame ∧
      p + (b.toNat + 4) ≤ bs.length ∧ f = (bs.drop p).take (b.toNat + 4) ∧ crc16 xmodem f = 0 := by
  rw [decodeBytes_frames] at h
  obtain ⟨p, k, hk, rfl⟩ := decodeFrom_frames c bs.length 0 0 bs f h
  obtain ⟨b, rest, hd, rfl, hmin, hmax, hfit, hcrc⟩ := frameAtHead_some hk
  have hb : bs[p]? = some b := by rw [← List.head?_drop, hd]; rfl
  rw [List.length_drop] at hfit
  exact ⟨p, b, hb, hmin, hmax, by omega, rfl, hcrc⟩

/-- Settles O32: the loop publishes the decoder's frames, and the prune cuts where the decoder does. -/
theorem scanComputesTheDecoder : Obligations.ScanComputesTheDecoder := by
  intro s hs
  obtain ⟨m, hm, hpass, -, hout, hend⟩ := execScan_decodes hs
  refine ⟨scanPrune m, hm, ?_, ?_⟩
  · rw [scanPrune_out, hout, decodeBytes_frames, hs.length_validPart]
  · rw [validPart_scanPrune (hpass.bufOk hs), hpass.validPart, decodeBytes_kept, hs.length_validPart]
    congr 1
    unfold cutIndex
    cases hd : (decodeFrom s.cfg s.blen 0 s.validPart).2 with
    | none =>
      rw [hd] at hend
      obtain ⟨hacc, -⟩ := hend
      rw [hacc, hpass.blen, hpass.cfg]; rfl
    | some e =>
      rw [hd] at hend
      obtain ⟨hacc, hlast, -⟩ := hend
      rw [hacc, hlast]; rfl

/-- Settles O34: the events are those of the decoder's frames, which stand in the buffer. -/
theorem onlyValidFramesArePublished : Obligations.OnlyValidFramesArePublished := by
  intro s t hs ht
  obtain ⟨t', ht', hout, -⟩ := scanComputesTheDecoder s hs
  obtain rfl := next_inj (ht.symm.trans ht')
  refine ⟨_, hout, fun ev hev => ?_⟩
  obtain ⟨f, hf, rfl⟩ := List.mem_map.1 hev
  obtain ⟨p, b, hb, hmin, hmax, hfit, hrun, hcrc⟩ := decodeBytes_frame_in_bytes hf
  rw [hs.validPart_getElem?] at hb
  rw [hs.length_validPart] at hfit
  exact ⟨p, b, f, hb, hmin, hmax, hfit, by rw [hs.memRead_eq hfit, hrun], hcrc, rfl⟩

end Sys2Proof.Safety
end

section
/-! Sequences of commands (spec/30_encoding.md R89, R92, R94): the front door's answers, and the expansions
of the pseudo-instructions. -/

namespace Sys2Proof.Machine

open Sys2Proof.Safety

/-! ### STEP -/

/-- The word of `SCAN` (R87). -/
theorem cmdAt_scan (now : Nat) : cmdAt now .scan = .command 0x600 now := rfl

theorem expand_step_cons (c : Config) (b : Byte) (bs : List Byte) (now : Nat) :
    expand c (.step (b :: bs) now) = expand c (.ingest (b :: bs) now) ++ [cmdAt now .scan] := rfl

theorem expand_step_nil (c : Config) (now : Nat) :
    expand c (.step [] now) =
      if c.emptyStepOpens then [cmdAt now .rxOpen, cmdAt now .scan] else [cmdAt now .scan] := rfl

/-- Settles O51: a step with bytes by the shape of its expansion, the empty one by EMPTY_STEP_OPENS. -/
theorem stepExpansion : Obligations.StepExpansion := by
  intro c now
  refine ⟨fun b bs => expand_step_cons c b bs now, fun h => ?_, fun h => ?_⟩
  · rw [expand_step_nil, h, cmdAt_scan]; rfl
  · rw [expand_step_nil, h, cmdAt_scan]; rfl

/-! ### The front door, one equation per answer -/

theorem submit_of_holdsReserved {ins : List HostInput} (h : holdsReserved ins = true) (s : State) :
    submit ins s = .refused .reservedOpcodeInSequence := by
  rw [submit, if_pos h]

theorem submit_of_sourceShaped {ins : List HostInput} (hr : holdsReserved ins = false)
    (hs : sourceShaped false ins = true) (s : State) :
    submit ins s = .next { s with pending := s.pending ++ ins } := by
  rw [submit, hr, hs]; rfl

theorem submit_of_not_sourceShaped {ins : List HostInput} (hr : holdsReserved ins = false)
    (hs : sourceShaped false ins = false) (s : State) :
    submit ins s = .refused .burstShapeBroken := by
  rw [submit, hr, hs]; rfl

/-- Before the first command no burst is open. -/
theorem sourceShaped_false_iff (ins : List HostInput) :
    sourceShaped false ins = true ↔ BurstsUnbroken ins := by
  simp only [sourceShaped_iff, BurstsUnbroken, Bool.false_eq_true, and_false, false_or]

/-! ### The expansions hold no reserved opcode -/

theorem holdsReserved_append (l r : List HostInput) :
    holdsReserved (l ++ r) = (holdsReserved l || holdsReserved r) :=
  List.any_append

/-- A written command is reserved when its instruction is. -/
theorem holdsReserved_map_cmdAt {α : Type} {f : α → Instr} (hwf : ∀ a, (f a).wellFormed = true)
    (hr : ∀ a, isReserved (f a) = false) (now : Nat) (l : List α) :
    holdsReserved (l.map fun a => cmdAt now (f a)) = false := by
  simp [holdsReserved, cmdAt, decodeWord_encode (hwf _), hr]

theorem holdsReserved_expand_ingest (c : Config) (bs : List Byte) (now : Nat) :
    holdsReserved (expand c (.ingest bs now)) = false := by
  show holdsReserved ([cmdAt now .rxOpen] ++ _) = false
  rw [holdsReserved_append, holdsReserved_map_cmdAt (f := .rxByte) (fun _ => rfl) (fun _ => rfl)]; rfl

theorem holdsReserved_expand (c : Config) (x : Pseudo) : holdsReserved (expand c x) = false := by
  cases x with
  | crc16 bs =>
    show holdsReserved ([cmdAt 0 .crcRestart] ++ (_ ++ [cmdAt 0 .crcCalc])) = false
    rw [holdsReserved_append, holdsReserved_append,
      holdsReserved_map_cmdAt (f := .crcAdd) (fun _ => rfl) (fun _ => rfl)]; rfl
  | ingest bs now => exact holdsReserved_expand_ingest c bs now
  | step bs now =>
    cases bs with
    | nil => rw [expand_step_nil]; split <;> rfl
    | cons b bs =>
      rw [expand_step_cons, holdsReserved_append, holdsReserved_expand_ingest]; rfl

/-! ### The expansions break no burst -/

theorem sourceShaped_map_crcAdd (now : Nat) (bs : List Byte) (rest : List HostInput) :
    sourceShaped false (bs.map (fun b => cmdAt now (.crcAdd b)) ++ rest) = sourceShaped false rest := by
  induction bs with
  | nil => rfl
  | cons b bs ih => simpa [sourceShaped, cmdAt, decodeWord_encode (i := .crcAdd b) rfl] using ih

/-- The bytes of a burst leave it open. -/
theorem sourceShaped_map_rxByte (now : Nat) (bs : List Byte) (rest : List HostInput) :
    sourceShaped true (bs.map (fun b => cmdAt now (.rxByte b)) ++ rest) = sourceShaped true rest := by
  induction bs with
  | nil => rfl
  | cons b bs ih => simpa [sourceShaped, cmdAt, decodeWord_encode (i := .rxByte b) rfl] using ih

theorem sourceShaped_expand (c : Config) (x : Pseudo) : sourceShaped false (expand c x) = true := by
  cases x with
  | crc16 bs => exact sourceShaped_map_crcAdd 0 bs [cmdAt 0 .crcCalc]
  | ingest bs now =>
    have h := sourceShaped_map_rxByte now bs []
    rw [List.append_nil] at h
    exact h
  | step bs now =>
    cases bs with
    | nil => rw [expand_step_nil]; split <;> rfl
    | cons b bs => exact sourceShaped_map_rxByte now (b :: bs) [cmdAt now .scan]

/-- Settles O50: the two tests of the front door, which every expansion passes. -/
theorem frontDoorRefusesReservedAndBrokenBursts :
    Obligations.FrontDoorRefusesReservedAndBrokenBursts := by
  refine ⟨fun s before later w now hw => ?_, fun s ins hins => ?_, fun s x => ?_⟩
  · exact submit_of_holdsReserved ((holdsReserved_iff _).2 ⟨w, now, by simp, hw⟩) s
  · have hr : holdsReserved ins = false := by
      refine Bool.eq_false_iff.2 fun h => ?_
      obtain ⟨w, now, hmem, hw⟩ := (holdsReserved_iff ins).1 h
      exact absurd (hins w now hmem) (Nat.not_lt.2 hw)
    refine ⟨fun h => ?_, fun h => ?_⟩
    · exact submit_of_sourceShaped hr ((sourceShaped_false_iff ins).2 h) s
    · exact submit_of_not_sourceShaped hr (Bool.eq_false_iff.2 (mt (sourceShaped_false_iff ins).1 h)) s
  · exact submit_of_sourceShaped (holdsReserved_expand s.cfg x) (sourceShaped_expand s.cfg x) s

end Sys2Proof.Machine
end

section
/-! The CRC engine's functions (spec/40_crc_engine.md R104 to R108, R112): bit by bit, in exact arithmetic,
linear over GF(2), and the residue law. -/

namespace Sys2Proof.Machine

open Sys2Proof.Safety

/-! ### Bit reversals -/

theorem getLsbD_rev8 (b : Byte) {k : Nat} (hk : k < 8) : (rev8 b).getLsbD k = b.getLsbD (7 - k) := by
  rw [rev8, BitVec.getLsbD_reverse, BitVec.getMsbD_eq_getLsbD]; simp [hk]

theorem getLsbD_rev16 (v : CrcWord) {k : Nat} (hk : k < 16) :
    (rev16 v).getLsbD k = v.getLsbD (15 - k) := by
  rw [rev16, BitVec.getLsbD_reverse, BitVec.getMsbD_eq_getLsbD]; simp [hk]

theorem rev8_xor (b d : Byte) : rev8 (b ^^^ d) = rev8 b ^^^ rev8 d := by
  refine BitVec.eq_of_getLsbD_eq fun k hk => ?_
  simp only [BitVec.getLsbD_xor, getLsbD_rev8 _ hk]

/-- Settles O16: the two reversals bit by bit, and the spec's examples by evaluation. -/
theorem bitReversals : Obligations.BitReversals :=
  ⟨fun b _ hk => getLsbD_rev8 b hk, fun v _ hk => getLsbD_rev16 v hk, fun _ => BitVec.reverse_reverse_eq,
    fun _ => BitVec.reverse_reverse_eq, by decide, by decide⟩

/-! ### The byte that `CRC.ADD` processes -/

theorem getLsbD_inputByte (p : CrcParams) (b : Byte) {k : Nat} (hk : k < 8) :
    (inputByte p b).getLsbD k = if p.refin then b.getLsbD (7 - k) else b.getLsbD k := by
  cases h : p.refin <;> simp [inputByte, h, getLsbD_rev8 b hk]

theorem inputByte_xor (p : CrcParams) (b d : Byte) :
    inputByte p (b ^^^ d) = inputByte p b ^^^ inputByte p d := by
  cases h : p.refin <;> simp [inputByte, h, rev8_xor]

@[simp] theorem inputByte_zero (p : CrcParams) : inputByte p 0 = 0 := by
  cases h : p.refin <;> simp [inputByte, h, rev8]

theorem inputByte_congr {p q : CrcParams} (h : p.refin = q.refin) (b : Byte) :
    inputByte p b = inputByte q b := by
  simp [inputByte, h]

/-! ### The shift step in exact arithmetic -/

theorem lfsr1_toNat (p : CrcParams) (r : CrcWord) :
    (lfsr1 p r).toNat = shiftNumber p.poly.toNat r.toNat := by
  have hdouble : (r <<< 1).toNat = 2 * r.toNat % 65536 := by
    rw [BitVec.toNat_shiftLeft, Nat.shiftLeft_eq, Nat.mul_comm]
  have hmsb : r.msb = decide (32768 ≤ r.toNat) := BitVec.msb_eq_decide r
  by_cases h : 32768 ≤ r.toNat
  · rw [lfsr1_of_msb_true (by simp [hmsb, h]), BitVec.toNat_xor, hdouble, shiftNumber, if_pos h]
  · rw [lfsr1_of_msb_false (by simp [hmsb, h]), hdouble, shiftNumber, if_neg h]

/-- Settles O13: by the top bit of the register. -/
theorem shiftStepInExactArithmetic : Obligations.ShiftStepInExactArithmetic := lfsr1_toNat

theorem lfsrSteps_toNat (p : CrcParams) (n : Nat) (r : CrcWord) :
    (lfsrSteps p n r).toNat = (shiftNumber p.poly.toNat)^[n] r.toNat := by
  induction n generalizing r with
  | zero => rfl
  | succ n ih => rw [lfsrSteps, ih, lfsr1_toNat, Function.iterate_succ_apply]

/-! ### Linearity -/

/-- The shift with the polynomial selected by the top bit. -/
theorem lfsr1_eq_xor (p : CrcParams) (r : CrcWord) :
    lfsr1 p r = (r <<< 1) ^^^ (if r.msb then p.poly else 0) := by
  cases h : r.msb with
  | false => simp [lfsr1_of_msb_false h]
  | true => simp [lfsr1_of_msb_true h]

theorem lfsr1_xor (p : CrcParams) (r q : CrcWord) : lfsr1 p (r ^^^ q) = lfsr1 p r ^^^ lfsr1 p q := by
  have hsel : (if (r ^^^ q).msb then p.poly else 0) =
      (if r.msb then p.poly else 0) ^^^ (if q.msb then p.poly else 0) := by
    rw [BitVec.msb_xor]
    cases r.msb <;> cases q.msb <;> simp
  rw [lfsr1_eq_xor, lfsr1_eq_xor, lfsr1_eq_xor, hsel, BitVec.shiftLeft_xor_distrib]
  ac_rfl

theorem lfsrSteps_xor (p : CrcParams) (n : Nat) (r q : CrcWord) :
    lfsrSteps p n (r ^^^ q) = lfsrSteps p n r ^^^ lfsrSteps p n q := by
  induction n generalizing r q with
  | zero => rfl
  | succ n ih => rw [lfsrSteps, lfsr1_xor, ih]; rfl

theorem crcAddByte_xor (p : CrcParams) (r q : CrcWord) (b d : Byte) :
    crcAddByte p (r ^^^ q) (b ^^^ d) = crcAddByte p r b ^^^ crcAddByte p q d := by
  have hin : (r ^^^ q) ^^^ highByte (inputByte p (b ^^^ d)) =
      (r ^^^ highByte (inputByte p b)) ^^^ (q ^^^ highByte (inputByte p d)) := by
    rw [inputByte_xor, highByte_xor]; ac_rfl
  rw [crcAddByte, hin, lfsrSteps_xor]; rfl

/-- Settles O17: the shift is linear and the selected polynomial too, hence eight steps and the addition. -/
theorem crcAdditionIsLinear : Obligations.CrcAdditionIsLinear := ⟨lfsr1_xor, crcAddByte_xor⟩

/-! ### Shift steps without feedback -/

/-- A clear top bit is all that a shift could lose. -/
theorem shiftLeft_one_toNat_of_msb_false {r : CrcWord} (h : r.msb = false) :
    (r <<< 1).toNat = r.toNat * 2 := by
  have := BitVec.msb_eq_false_iff_two_mul_lt.1 h
  rw [BitVec.toNat_shiftLeft, Nat.shiftLeft_eq, Nat.mod_eq_of_lt (by omega)]

/-- While no set bit reaches the top, the steps are a plain shift. -/
theorem lfsrSteps_of_lt (p : CrcParams) {n : Nat} {r : CrcWord} (h : r.toNat * 2 ^ n < 2 ^ 16) :
    lfsrSteps p n r = r <<< n := by
  induction n generalizing r with
  | zero => exact (BitVec.shiftLeft_zero r).symm
  | succ n ih =>
    have hpow : r.toNat * 2 ^ (n + 1) = r.toNat * 2 * 2 ^ n := by ring
    have hle : r.toNat * 2 ≤ r.toNat * 2 * 2 ^ n := Nat.le_mul_of_pos_right _ (Nat.two_pow_pos n)
    have hmsb : r.msb = false := BitVec.msb_eq_false_iff_two_mul_lt.2 (by omega)
    have hlt : (r <<< 1).toNat * 2 ^ n < 2 ^ 16 := by
      rwa [shiftLeft_one_toNat_of_msb_false hmsb, ← hpow]
    rw [lfsrSteps, lfsr1_of_msb_false hmsb, ih hlt, ← BitVec.shiftLeft_add, Nat.add_comm]

@[simp] theorem lfsrSteps_zero (p : CrcParams) (n : Nat) : lfsrSteps p n 0 = 0 := by
  rw [lfsrSteps_of_lt p (by simp)]; exact BitVec.zero_shiftLeft n

/-- Without a polynomial the steps are a plain shift. -/
theorem lfsrSteps_of_poly_zero {p : CrcParams} (h : p.poly = 0) (n : Nat) (r : CrcWord) :
    lfsrSteps p n r = r <<< n := by
  induction n generalizing r with
  | zero => exact (BitVec.shiftLeft_zero r).symm
  | succ n ih =>
    have hstep : lfsr1 p r = r <<< 1 := by simp [lfsr1_eq_xor, h]
    rw [lfsrSteps, hstep, ih, ← BitVec.shiftLeft_add, Nat.add_comm]

/-! ### The residue law -/

/-- With an odd polynomial bit 0 after the step is the top bit before it, so nothing is lost. -/
theorem lfsr1_eq_zero_iff {p : CrcParams} (hodd : p.poly.getLsbD 0 = true) (r : CrcWord) :
    lfsr1 p r = 0 ↔ r = 0 := by
  refine ⟨fun h => ?_, fun h => h ▸ lfsrSteps_zero p 1⟩
  have hmsb : r.msb = false := by
    have hbit : (lfsr1 p r).getLsbD 0 = r.msb := by
      cases hr : r.msb <;> simp [lfsr1_eq_xor, hr, hodd]
    rw [← hbit, h, BitVec.ofNat_eq_ofNat, BitVec.getLsbD_zero]
  have hdouble : r.toNat * 2 = 0 := by
    rw [← shiftLeft_one_toNat_of_msb_false hmsb, ← lfsr1_of_msb_false (p := p) hmsb, h]; rfl
  exact BitVec.eq_of_toNat_eq (show r.toNat = 0 by omega)

theorem lfsrSteps_eq_zero_iff {p : CrcParams} (hodd : p.poly.getLsbD 0 = true) (n : Nat) (r : CrcWord) :
    lfsrSteps p n r = 0 ↔ r = 0 := by
  induction n generalizing r with
  | zero => rfl
  | succ n ih => rw [lfsrSteps, ih, lfsr1_eq_zero_iff hodd]

/-- Eight steps bring a byte from the low half of the register to the high half (R112). -/
theorem lfsrSteps_lowByte (p : CrcParams) (l : Byte) : lfsrSteps p 8 (l.setWidth 16) = highByte l := by
  refine lfsrSteps_of_lt p ?_
  have := l.isLt
  rw [BitVec.toNat_setWidth]; omega

/-- The word of the two bytes, high byte first. -/
theorem highByte_xor_lowByte (h l : Byte) : highByte h ^^^ l.setWidth 16 = h ++ l := by
  refine BitVec.eq_of_getLsbD_eq fun k hk => ?_
  rw [BitVec.getLsbD_append]
  by_cases hlow : k < 8
  · simp [highByte, hlow, hk]
  · have hl : l.getLsbD k = false := BitVec.getLsbD_of_ge l k (by omega)
    simp [highByte, hlow, hk, hl]

theorem bytes_toNat (h l : Byte) : (h ++ l).toNat = h.toNat * 256 + l.toNat := by
  rw [BitVec.toNat_append, ← Nat.shiftLeft_add_eq_or_of_lt l.isLt, Nat.shiftLeft_eq]

/-- Two bytes fed unreversed are the word `W` they make, and sixteen steps (R112). -/
theorem crcFeed_pair {p : CrcParams} (hrefin : p.refin = false) (r : CrcWord) (h l : Byte) :
    crcFeed p r [h, l] = lfsrSteps p 16 (r ^^^ (h ++ l)) := by
  have hin : ∀ b, inputByte p b = b := fun b => by simp [inputByte, hrefin]
  calc crcFeed p r [h, l]
      = lfsrSteps p 8 (lfsrSteps p 8 (r ^^^ highByte h) ^^^ highByte l) := by
        simp only [crcFeed_cons, crcFeed_nil, crcAddByte, hin]
    _ = lfsrSteps p 8 (lfsrSteps p 8 ((r ^^^ highByte h) ^^^ l.setWidth 16)) := by
        rw [← lfsrSteps_lowByte p l, ← lfsrSteps_xor]
    _ = lfsrSteps p 16 (r ^^^ (h ++ l)) := by
        rw [← lfsrSteps_add, BitVec.xor_assoc, highByte_xor_lowByte]

theorem crc16_xmodem (m : List Byte) : crc16 xmodem m = crcFeed xmodem 0 m := crcResult_xmodem _

/-- Settles O18: the register after the two bytes is sixteen steps from the exclusive-or of the CRC and
the word they make, and an odd polynomial takes only zero to zero. -/
theorem residueLaw : Obligations.ResidueLaw := by
  intro m h l
  rw [crc16_xmodem, crc16_xmodem, crcFeed_append, crcFeed_pair rfl, lfsrSteps_eq_zero_iff rfl,
    BitVec.ofNat_eq_ofNat, BitVec.xor_eq_zero_iff, ← bytes_toNat, BitVec.toNat_inj, eq_comm]

end Sys2Proof.Machine
end

section
/-! The CRC commands (spec/40_crc_engine.md R101 to R103) and the pseudo-instruction `CRC16` (R110). -/

namespace Sys2Proof.Machine

open Sys2Proof.Safety

/-! ### What each command answers -/

theorem exec_crcRestart (s : State) : exec .crcRestart s = .next { s with crc := s.e.init } := rfl

theorem exec_crcAdd (b : Byte) (s : State) :
    exec (.crcAdd b) s = .next { s with crc := crcAddByte s.e s.crc b } := rfl

theorem exec_crcCalc (s : State) :
    exec .crcCalc s = .next { s with crcOut := crcResult s.e s.crc, crcOutValid := true } := rfl

/-- Settles O12: each part is what the command answers, evaluated. -/
theorem crcRestartLoadsInitial : Obligations.CrcRestartLoadsInitial :=
  ⟨rfl, exec_crcRestart, fun _ => rfl, fun _ _ => rfl, fun _ => rfl⟩

/-! ### CRC.ADD -/

theorem crcAddByte_toNat (p : CrcParams) (r : CrcWord) (b : Byte) :
    (crcAddByte p r b).toNat =
      (shiftNumber p.poly.toNat)^[8] (r.toNat ^^^ (256 * (inputByte p b).toNat)) := by
  rw [crcAddByte, lfsrSteps_toNat, BitVec.toNat_xor, highByte_toNat]

theorem crcAddByte_zero_zero (p : CrcParams) : crcAddByte p 0 0 = 0 := by
  have hhigh : highByte 0 = 0 := rfl
  rw [crcAddByte, inputByte_zero, hhigh, BitVec.xor_self]; exact lfsrSteps_zero p 8

theorem crcAddByte_congr {p q : CrcParams} (hpoly : p.poly = q.poly) (hrefin : p.refin = q.refin)
    (r : CrcWord) (b : Byte) : crcAddByte p r b = crcAddByte q r b := by
  rw [crcAddByte, crcAddByte, inputByte_congr hrefin, lfsrSteps_congr hpoly]

theorem encode_crcAdd (b : Byte) : encode (.crcAdd b) = 0x200 ||| b.setWidth 12 := by
  have hb : b.toNat < 2 ^ 12 := by have := b.isLt; omega
  refine BitVec.eq_of_toNat_eq ?_
  rw [encode, packWord, BitVec.toNat_append, BitVec.toNat_or, BitVec.toNat_setWidth, Nat.mod_eq_of_lt hb]
  rfl

/-- Settles O14: the byte bit by bit, then the shift steps. -/
theorem crcAddInExactArithmetic : Obligations.CrcAddInExactArithmetic := by
  refine ⟨encode_crcAdd, fun s b d hd => ⟨_, exec_crcAdd b s, ?_⟩, fun s h0 => ?_,
    fun s b hpoly => ?_, fun p q r b hpoly hrefin => crcAddByte_congr hpoly hrefin r b⟩
  · have hin : d = inputByte s.e b :=
      BitVec.eq_of_getLsbD_eq fun k hk => by rw [hd k hk, getLsbD_inputByte _ _ hk]
    rw [crcAddByte_toNat, hin]
  · rw [exec_crcAdd, h0, crcAddByte_zero_zero, ← h0]
  · rw [exec_crcAdd, crcAddByte, lfsrSteps_of_poly_zero hpoly]

/-! ### CRC.CALC -/

theorem getLsbD_crcResult (p : CrcParams) (r : CrcWord) {k : Nat} (hk : k < 16) :
    (crcResult p r).getLsbD k =
      ((if p.refout then r.getLsbD (15 - k) else r.getLsbD k) ^^ p.xorout.getLsbD k) := by
  cases h : p.refout <;> simp [crcResult, h, getLsbD_rev16 r hk]

theorem crc16_nil (p : CrcParams) :
    crc16 p [] = (if p.refout then rev16 p.init else p.init) ^^^ p.xorout := rfl

/-- Settles O15: what the command answers, with the result bit by bit and on the register after a start. -/
theorem crcCalcPutsResultOnPort : Obligations.CrcCalcPutsResultOnPort := by
  refine ⟨rfl, fun s => ⟨_, exec_crcCalc s, fun k hk => getLsbD_crcResult _ _ hk⟩, fun _ => rfl,
    fun s t h => ?_, fun c p => ⟨_, exec_crcCalc _, rfl, crc16_nil p⟩, crc16_nil xmodem⟩
  have hout : t.crcOut = crc16 s.e [] := by
    rw [exec_crcRestart, andThen_next, exec_crcCalc] at h
    rw [← next_inj h]; rfl
  exact ⟨hout, hout.trans (crc16_nil s.e)⟩

/-! ### The commands of CRC16 -/

/-- A written command at the head of what the host presents takes one of the steps (R221). -/
theorem runSteps_succ_of_cmdAt {s : State} {i : Instr} {now : Nat} {rest : List HostInput}
    (hwf : i.wellFormed = true) (hidle : s.st = .idle) (hp : s.pending = cmdAt now i :: rest) (n : Nat) :
    runSteps (n + 1) s = andThen (exec i (acceptCommand now rest s)) (runSteps n) := by
  rw [runSteps, step_of_command hidle hp, decodeWord_encode hwf]

/-- The presented bytes go into the register in order, one step each. -/
theorem runSteps_crcAdds {s : State} (hidle : s.st = .idle) (r : CrcWord) (bs : List Byte) (now : Nat)
    (rest : List HostInput) (n : Nat) :
    runSteps (bs.length + n) { s with
      crc := r, crcOutValid := false, nowIn := now
      pending := bs.map (fun b => cmdAt now (.crcAdd b)) ++ rest } =
    runSteps n { s with
      crc := crcFeed s.e r bs, crcOutValid := false, nowIn := now, pending := rest } := by
  induction bs generalizing r with
  | nil => rw [List.length_nil, Nat.zero_add]; rfl
  | cons b bs ih =>
    rw [List.length_cons, Nat.add_right_comm]
    refine (runSteps_succ_of_cmdAt (i := .crcAdd b) rfl ?_ rfl (bs.length + n)).trans (ih _)
    exact hidle

theorem runSteps_crcCalc {s : State} {now : Nat} {rest : List HostInput} (hidle : s.st = .idle)
    (hp : s.pending = cmdAt now .crcCalc :: rest) :
    runSteps 1 s = .next { acceptCommand now rest s with
      crcOut := crcResult s.e s.crc, crcOutValid := true } :=
  runSteps_succ_of_cmdAt rfl hidle hp 0

theorem expand_crc16_append (c : Config) (bs : List Byte) (rest : List HostInput) :
    expand c (.crc16 bs) ++ rest = cmdAt 0 .crcRestart ::
      (bs.map (fun b => cmdAt 0 (.crcAdd b)) ++ cmdAt 0 .crcCalc :: rest) := by
  simp [expand]

/-- Settles O19: `CRC.RESTART` loads the register and ends an earlier pulse, each byte takes one step, and
`CRC.CALC` puts the result on the port. -/
theorem crc16CommandsComputeMessageCrc : Obligations.Crc16CommandsComputeMessageCrc := by
  intro s bs rest hidle hp
  rw [expand_crc16_append] at hp
  calc runSteps (bs.length + 2) s
      = runSteps (bs.length + 1) { s with
          crc := s.e.init, crcOutValid := false, nowIn := 0
          pending := bs.map (fun b => cmdAt 0 (.crcAdd b)) ++ cmdAt 0 .crcCalc :: rest } :=
        runSteps_succ_of_cmdAt rfl hidle hp (bs.length + 1)
    _ = runSteps 1 { s with
          crc := crcFeed s.e s.e.init bs, crcOutValid := false, nowIn := 0
          pending := cmdAt 0 .crcCalc :: rest } := runSteps_crcAdds hidle _ bs 0 _ 1
    _ = .next { s with
          crc := crcFeed s.e s.e.init bs, crcOut := crc16 s.e bs, crcOutValid := true
          nowIn := 0, pending := rest } := runSteps_crcCalc hidle rfl

end Sys2Proof.Machine
end

section
/-! The frame buffer's commands `RX.OPEN` and `RX.BYTE`, and the pseudo-instruction `INGEST`
(spec/41_frame_buffer.md R131 to R133, R138). -/

namespace Sys2Proof.Machine

open Sys2Proof.Safety

/-! ### The time gap -/

theorem timeGap_lt (w now last : Nat) : timeGap w now last < 2 ^ w := by
  have hpos : (0 : Int) < ((2 ^ w : Nat) : Int) := Int.natCast_pos.2 (Nat.two_pow_pos w)
  have hlt : ((timeGap w now last : Nat) : Int) < ((2 ^ w : Nat) : Int) := by
    rw [timeGap_cast]; exact Int.emod_lt_of_pos _ hpos
  exact Int.ofNat_lt.1 hlt

theorem timeGap_modEq (w now last : Nat) :
    (timeGap w now last : Int) ≡ (now : Int) - last [ZMOD ((2 ^ w : Nat) : Int)] := by
  rw [timeGap_cast]; exact Int.mod_modEq _ _

theorem eq_timeGap {w now last g : Nat} (hg : g < 2 ^ w)
    (hmod : (g : Int) ≡ (now : Int) - last [ZMOD ((2 ^ w : Nat) : Int)]) : g = timeGap w now last := by
  have hcast : (g : Int) = (timeGap w now last : Nat) := by
    rw [timeGap_cast, ← hmod.eq, Int.emod_eq_of_lt (Int.natCast_nonneg g) (Int.ofNat_lt.2 hg)]
  exact Int.ofNat_inj.1 hcast

theorem timeGap_elapsed {w d : Nat} (last : Nat) (hd : d < 2 ^ w) :
    timeGap w ((last + d) % 2 ^ w) last = d := by
  have hsub : (d : Int) = ((last + d : Nat) : Int) - last := by omega
  rw [timeGap_mod]
  exact (eq_timeGap hd (congrArg (· % _) hsub)).symm

theorem timeGap_add_add (w now last d : Nat) :
    timeGap w ((now + d) % 2 ^ w) ((last + d) % 2 ^ w) = timeGap w now last := by
  have hsub : ((now + d : Nat) : Int) - ((last + d : Nat) : Int) = now - last := by omega
  have hred (n : Nat) : ((n % 2 ^ w : Nat) : Int) ≡ n [ZMOD ((2 ^ w : Nat) : Int)] :=
    Int.natCast_modEq_iff.2 (Nat.mod_modEq n _)
  refine eq_timeGap (timeGap_lt _ _ _) ((timeGap_modEq _ _ _).trans ?_)
  rw [← hsub]
  exact (hred _).sub (hred _)

/-- Settles O21: the gap is the remainder of the difference, and the two properties of a remainder give
the true distance and the invariance under a common advance. -/
theorem timeGapIsModular : Obligations.TimeGapIsModular :=
  ⟨fun w now last => ⟨timeGap_lt w now last, timeGap_modEq w now last⟩,
    fun _ _ _ _ hg hmod => eq_timeGap hg hmod,
    fun _ last _ _ hd => timeGap_elapsed last hd, timeGap_add_add⟩

/-! ### RX.OPEN -/

theorem exec_rxOpen_of_timedOut {s : State} (h : timedOut s = true) :
    exec .rxOpen s = .next { clearBuffer s with last := nowPort s } := by
  simp only [exec, execRxOpen, h, if_true]

theorem exec_rxOpen_of_not_timedOut {s : State} (h : timedOut s = false) :
    exec .rxOpen s = .next { s with last := nowPort s } := by
  simp [exec, execRxOpen, h]

/-- The timeout test on a gap given by its two properties (R132). -/
theorem timedOut_eq_decide {s : State} {g : Nat} (hg : g < 2 ^ s.cfg.timeW)
    (hmod : (g : Int) ≡ (s.nowIn : Int) - s.last [ZMOD ((2 ^ s.cfg.timeW : Nat) : Int)]) :
    timedOut s = decide (s.cfg.readTimeout < g) := by
  rw [timedOut, nowPort, timeGap_mod, ← eq_timeGap hg hmod]

/-- Settles O20: the gap decides the test; a clear leaves no cell below `blen`. -/
theorem rxOpenTestsTheGap : Obligations.RxOpenTestsTheGap := by
  refine ⟨rfl, fun s g hg hmod => ⟨fun hclear => ?_, fun hkeep => ?_⟩⟩
  · have htimed : timedOut s = true := by rw [timedOut_eq_decide hg hmod]; exact decide_eq_true hclear
    exact ⟨_, exec_rxOpen_of_timedOut htimed, rfl, validPart_clearBuffer s,
      fun i => bufRead_of_le (Nat.zero_le i)⟩
  · have htimed : timedOut s = false := by
      rw [timedOut_eq_decide hg hmod]; exact decide_eq_false (Nat.not_lt.2 hkeep)
    exact exec_rxOpen_of_not_timedOut htimed

/-- The valid part `RX.OPEN` leaves. -/
theorem validPart_of_exec_rxOpen {s t : State} (h : exec .rxOpen s = .next t) :
    t.validPart = if timedOut s then [] else s.validPart := by
  cases htimed : timedOut s with
  | true =>
    rw [exec_rxOpen_of_timedOut htimed] at h
    rw [← next_inj h]; rfl
  | false =>
    rw [exec_rxOpen_of_not_timedOut htimed] at h
    rw [← next_inj h]; rfl

/-! ### RX.BYTE -/

theorem encode_rxByte (b : Byte) : encode (.rxByte b) = 0x500 ||| b.setWidth 12 := by
  rw [encode, packWord, BitVec.append_def]; rfl

theorem exec_rxByte_of_room {s : State} (h : s.blen < s.cfg.bufferSize) (b : Byte) :
    exec (.rxByte b) s = .next (appendByte b s) := by
  simp [exec, execRxByte, hasRoom, h]

theorem exec_rxByte_of_full {s : State} (h : s.cfg.bufferSize ≤ s.blen) (b : Byte) :
    exec (.rxByte b) s = .next s := by
  simp [exec, execRxByte, hasRoom, Nat.not_lt.2 h]

/-- Settles O22: below capacity the command appends, at capacity it answers the same state. -/
theorem rxByteAppendsOrDrops : Obligations.RxByteAppendsOrDrops :=
  ⟨encode_rxByte,
    fun s b hbuf hroom =>
      ⟨_, exec_rxByte_of_room hroom b, rfl, bufRead_appendByte b s, validPart_appendByte hbuf b⟩,
    fun _ b hfull => exec_rxByte_of_full hfull b⟩

/-- Appended or dropped, the valid part is what fits of the old one followed by the byte. -/
theorem validPart_of_exec_rxByte {s t : State} {b : Byte} (h : exec (.rxByte b) s = .next t)
    (hbuf : s.BufOk) (hcap : s.blen ≤ s.cfg.bufferSize) :
    t.validPart = (s.validPart ++ [b]).take s.cfg.bufferSize := by
  have hlen := hbuf.length_validPart
  by_cases hroom : s.blen < s.cfg.bufferSize
  · rw [exec_rxByte_of_room hroom] at h
    rw [← next_inj h, validPart_appendByte hbuf,
      List.take_of_length_le (by rw [List.length_append, hlen]; exact hroom)]
  · have hfull : s.cfg.bufferSize = s.validPart.length := by omega
    rw [exec_rxByte_of_full (Nat.not_lt.1 hroom)] at h
    rw [← next_inj h, hfull, List.take_left]

/-! ### The commands of INGEST -/

/-- What fits of a whole sequence may be cut after each part. -/
theorem take_take_append {α : Type} (n : Nat) (l m : List α) :
    (l.take n ++ m).take n = (l ++ m).take n := by
  have hmin : n - min n l.length = n - l.length := by omega
  rw [List.take_append, List.take_append, List.take_take, List.length_take, Nat.min_self, hmin]

theorem acceptCommand_acceptCommand (now m : Nat) (rest q : List HostInput) (s : State) :
    acceptCommand now rest (acceptCommand m q s) = acceptCommand now rest s := rfl

/-- `RX.BYTE` neither reads nor writes what the command port holds. -/
theorem exec_rxByte_acceptCommand {s t : State} {b : Byte} (h : exec (.rxByte b) s = .next t)
    (now : Nat) (rest : List HostInput) :
    exec (.rxByte b) (acceptCommand now rest s) = .next (acceptCommand now rest t) := by
  by_cases hroom : s.blen < s.cfg.bufferSize
  · rw [exec_rxByte_of_room hroom] at h
    rw [← next_inj h]; exact exec_rxByte_of_room (s := acceptCommand now rest s) hroom b
  · have hfull := Nat.not_lt.1 hroom
    rw [exec_rxByte_of_full hfull] at h
    rw [← next_inj h]; exact exec_rxByte_of_full (s := acceptCommand now rest s) hfull b

/-- The presented bytes go into the buffer in order, one step each, as far as they fit. -/
theorem runSteps_rxBytes {s : State} (hidle : s.st = .idle) (hbuf : s.BufOk)
    (hcap : s.blen ≤ s.cfg.bufferSize) (bs : List Byte) (now : Nat) (rest : List HostInput) :
    ∃ t, runSteps bs.length
        (acceptCommand now (bs.map (fun b => cmdAt now (.rxByte b)) ++ rest) s) = .next t ∧
      t = { acceptCommand now rest s with buf := t.buf, blen := t.blen } ∧
      t.BufOk ∧ t.validPart = (s.validPart ++ bs).take s.cfg.bufferSize := by
  induction bs generalizing s with
  | nil =>
    refine ⟨_, rfl, rfl, hbuf, ?_⟩
    rw [List.append_nil, List.take_of_length_le (hbuf.length_validPart.le.trans hcap)]; rfl
  | cons b bs ih =>
    obtain ⟨u, hu⟩ : ∃ u, exec (.rxByte b) s = .next u := ⟨_, rfl⟩
    have hvalid := validPart_of_exec_rxByte hu hbuf hcap
    obtain ⟨hbuf', hcap'⟩ := exec_keeps_buffer hu hbuf hcap
    obtain ⟨m, n, rfl⟩ := exec_writesOnly hu
    obtain ⟨t, hrun, ht, hok, hbytes⟩ := ih (s := { s with buf := m, blen := n }) hidle hbuf' hcap'
    refine ⟨t, ?_, ht, hok, ?_⟩
    · refine (runSteps_succ_of_cmdAt (s := acceptCommand now (_ :: _) s) (i := .rxByte b) rfl hidle rfl
        bs.length).trans ?_
      rw [acceptCommand_acceptCommand, exec_rxByte_acceptCommand hu, andThen_next]
      exact hrun
    · rw [hbytes, hvalid, take_take_append, List.append_assoc, List.singleton_append]

theorem expand_ingest_append (c : Config) (bs : List Byte) (now : Nat) (rest : List HostInput) :
    expand c (.ingest bs now) ++ rest =
      cmdAt now .rxOpen :: (bs.map (fun b => cmdAt now (.rxByte b)) ++ rest) := rfl

/-- `RX.OPEN` with a reading of the port's width beside it takes that reading. -/
theorem exec_rxOpen_acceptCommand {s : State} {now : Nat} (hnow : now < 2 ^ s.cfg.timeW)
    (rest : List HostInput) :
    ∃ m n, let t : State := { s with buf := m, blen := n, last := now }
      exec .rxOpen (acceptCommand now rest s) = .next (acceptCommand now rest t) ∧
      t.validPart =
        if s.cfg.readTimeout < timeGap s.cfg.timeW now s.last then [] else s.validPart := by
  have hport : nowPort (acceptCommand now rest s) = now := Nat.mod_eq_of_lt hnow
  obtain ⟨u, hu⟩ : ∃ u, exec .rxOpen (acceptCommand now rest s) = .next u := ⟨_, rfl⟩
  have hvalid := validPart_of_exec_rxOpen hu
  obtain ⟨m, n, rfl⟩ := exec_writesOnly hu
  simp only [timedOut, hport, decide_eq_true_eq] at hu hvalid
  exact ⟨m, n, hu, hvalid⟩

/-- Settles O23: `RX.OPEN` clears or keeps and takes the reading, then each byte takes one step. -/
theorem ingestClosedForm : Obligations.IngestClosedForm := by
  intro s bs now rest hbuf hcap hnow hidle hp
  rw [expand_ingest_append] at hp
  obtain ⟨m, n, hopen, hvalid⟩ := exec_rxOpen_acceptCommand hnow (bs.map _ ++ rest)
  obtain ⟨hbuf', hcap'⟩ := exec_keeps_buffer hopen hbuf hcap
  obtain ⟨t, hrun, ht, hok, hbytes⟩ := runSteps_rxBytes
    (s := { s with buf := m, blen := n, last := now }) hidle hbuf' hcap' bs now rest
  refine ⟨t, ?_, ht, hok, hok.length_validPart.symm, ?_⟩
  · rw [runSteps_succ_of_cmdAt rfl hidle hp, hopen, andThen_next, hrun]
  · rw [hbytes, hvalid]

end Sys2Proof.Machine
end

section
/-! The micro-operations of the scanner one at a time (spec/42_frame_scanner.md R152 to R165): what each
answers where the reads it makes are defined, and the transition that performs it
(spec/44_step_fsm.md R221). -/

namespace Sys2Proof.Machine

open Sys2Proof.Safety

/-! ### The transition of each state in terms of its micro-operation -/

theorem fsmStep_of_hunt {s a : State} (hst : s.st = .hunt) (hp : s.pos < s.blen)
    (ha : scanHdr s = .next a) :
    fsmStep s = .next (if lengthOK a then { a with st := .check } else reject a) := by
  simp only [fsmStep, hst, hp, if_true, ha, andThen_next]

theorem fsmStep_of_check {s c : State} (hst : s.st = .check) (hc : scanCheck s = .next c) :
    fsmStep s = .next (if crcOK c then { c with st := .emit } else { reject c with st := .hunt }) := by
  simp only [fsmStep, hst, hc, andThen_next]

theorem fsmStep_of_emit {s t : State} (hst : s.st = .emit) (ht : scanEmit s = .next t) :
    fsmStep s = .next { t with st := .ack } := by
  simp only [fsmStep, hst, ht, andThen_next]

theorem fsmStep_of_ack {s t : State} (hst : s.st = .ack) (ht : scanAck s = .next t) :
    fsmStep s = .next { t with st := .hunt } := by
  simp only [fsmStep, hst, ht, andThen_next]

/-! ### SCAN.HDR -/

/-- The length test with the candidate length put in: the subtraction of R152 as a sum. -/
theorem lengthOK_with_len {s : State} {n : Nat} (hp : s.pos < s.blen) :
    lengthOK { s with len := n } = true ↔
      s.cfg.minFrame ≤ n ∧ n ≤ s.cfg.maxFrame ∧ s.pos + n ≤ s.blen := by
  have hsub : n ≤ s.blen - s.pos ↔ s.pos + n ≤ s.blen := by omega
  rw [lengthOK_iff, ← hsub]

/-- Settles O25: the length is the byte plus FRAME_OVERHEAD, and HUNT branches on `lengthOK` of it. -/
theorem scanHdrComputesLength : Obligations.ScanHdrComputesLength := by
  intro s b hb
  have hp := bufRead_lt hb
  have hhdr : scanHdr s = .next { s with len := b.toNat + 4 } := scanHdr_of_read hb
  have hok := lengthOK_with_len (n := b.toNat + 4) hp
  refine ⟨hhdr, hok, fun hst => ⟨fun hlegal => ?_, fun hillegal => ?_⟩⟩
  · rw [fsmStep_of_hunt hst hp hhdr, if_pos (hok.2 hlegal)]
  · rw [fsmStep_of_hunt hst hp hhdr, if_neg (fun h => hillegal (hok.1 h))]; rfl

/-! ### SCAN.CHECK -/

theorem scanCheck_of_bufOk {s : State} (h : s.BufOk) (hfit : s.pos + s.len ≤ s.blen) :
    scanCheck s = .next { s with
      vcrc := crcFeed xmodem xmodem.init ((s.validPart.drop s.pos).take s.len) } := by
  simp only [scanCheck, h.memRead_eq hfit, crcStart]

/-- The residue test on a register that a fresh engine V has fed with `bs`. -/
theorem crcOK_of_crcFeed {s : State} {bs : List Byte} (h : s.vcrc = crcFeed xmodem xmodem.init bs) :
    crcOK s = true ↔ crc16 xmodem bs = 0 := by
  simp [crcOK, crc16, crcStart, h]

/-- Settles O26: the read is the candidate, and CHECK branches on `crcOK` of the register it leaves. -/
theorem scanCheckIsFreshXmodem : Obligations.ScanCheckIsFreshXmodem := by
  intro s h hfit
  have hchk := scanCheck_of_bufOk h hfit
  have hok := crcOK_of_crcFeed (s := { s with
    vcrc := crcFeed xmodem xmodem.init ((s.validPart.drop s.pos).take s.len) }) rfl
  refine ⟨_, hchk, rfl, hok, fun hst => ⟨fun hzero => ?_, fun hne => ?_⟩⟩
  · rw [fsmStep_of_check hst hchk, if_pos (hok.2 hzero)]
  · rw [fsmStep_of_check hst hchk, if_neg (fun hc => hne (hok.1 hc))]; rfl

/-! ### SCAN.EMIT -/

theorem scanEmit_of_bufOk {s : State} {b : Byte} (h : s.BufOk) (hfit : s.pos + s.len ≤ s.blen)
    (hb : bufRead s (s.pos + 1) = some b) :
    scanEmit s = .next { s with
      out := s.out ++ [⟨s.cfg.topic, hex ((s.validPart.drop s.pos).take s.len)⟩]
      f1 := b, pos := s.pos + s.len, lastEnd := s.pos + s.len, acc := true } := by
  simp only [scanEmit, h.memRead_eq hfit, hb, publish]

/-- Settles O27: byte 1 of a candidate of four bytes stands in the buffer, so both reads are defined. -/
theorem scanEmitPublishesAndAdvances : Obligations.ScanEmitPublishesAndAdvances := by
  intro s h hfit hlen
  obtain ⟨b, hb⟩ := h.bufRead_some (i := s.pos + 1) (by omega)
  have hemit := scanEmit_of_bufOk h hfit hb
  exact ⟨b, hb, hemit, fun hst => ⟨_, hemit, fsmStep_of_emit hst hemit⟩⟩

/-! ### SCAN.ACK -/

theorem scanAck_of_read {s : State} {a : Byte} (ha : bufRead s s.pos = some a) :
    scanAck s = .next (if ackMatches s.f1 a then { s with pos := s.pos + 1 } else s) := by
  simp only [scanAck, bufRead_lt ha, if_true, ha]

theorem scanAck_of_match {s : State} {a : Byte} (ha : bufRead s s.pos = some a)
    (hm : a.toNat = s.f1.toNat / 16 * 16 + 10 ∨ s.f1.toNat = 15 ∧ a.toNat = 26) :
    scanAck s = .next { s with pos := s.pos + 1 } := by
  rw [scanAck_of_read ha, if_pos ((ackMatches_iff _ _).2 hm)]

theorem scanAck_of_no_match {s : State} {a : Byte} (ha : bufRead s s.pos = some a)
    (hm : ¬ (a.toNat = s.f1.toNat / 16 * 16 + 10 ∨ s.f1.toNat = 15 ∧ a.toNat = 26)) :
    scanAck s = .next s := by
  rw [scanAck_of_read ha, if_neg (fun h => hm ((ackMatches_iff _ _).1 h))]

/-- No byte after the frame, no skip (spec/42_frame_scanner.md R161). -/
theorem scanAck_at_end {s : State} (h : s.blen ≤ s.pos) : scanAck s = .next s :=
  if_neg (Nat.not_lt.2 h)

/-- Settles O28: a matching byte, another byte, no byte, and the transition in ACK. -/
theorem scanAckSkipsOneMatchingByte : Obligations.ScanAckSkipsOneMatchingByte :=
  ⟨fun _ _ _ ha => ⟨scanAck_of_match ha, scanAck_of_no_match ha⟩, fun _ => scanAck_at_end,
    fun _ _ => fsmStep_of_ack⟩

/-- Settles O37: the accept leaves the cursor on the byte after the frame and byte 1 in `f1`, and the skip
moves nothing but the cursor. -/
theorem ackByteIsSkippedInTheSamePass : Obligations.AckByteIsSkippedInTheSamePass := by
  intro s a b h _ hfit hb ha hm
  rw [scanEmit_of_bufOk h hfit.le hb, andThen_next]
  exact ⟨_, scanAck_of_match ha hm, rfl, rfl, rfl⟩

/-! ### SCAN.PRUNE -/

theorem cutIndex_of_acc {s : State} (h : s.acc = true) : cutIndex s = s.lastEnd := by
  rw [cutIndex, h]; rfl

theorem cutIndex_of_not_acc {s : State} (h : s.acc = false) :
    cutIndex s = s.blen - s.cfg.maxFrame := by
  rw [cutIndex, h]; rfl

/-- A buffer within the window is left alone by a pass that accepted nothing. -/
theorem scanPrune_of_fits {s : State} (h : s.acc = false) (hfit : s.blen ≤ s.cfg.maxFrame) :
    scanPrune s = s := by
  rw [scanPrune, h, if_neg Bool.false_ne_true, if_neg (Nat.not_lt.2 hfit)]

/-- Settles O29: the laws of the prune at its cut index, with the cut in each case. -/
theorem scanPruneKeepsASuffix : Obligations.ScanPruneKeepsASuffix := by
  intro s h _
  have hblen := scanPrune_blen s
  have hvalid := validPart_scanPrune h
  have hread := bufRead_scanPrune s
  refine ⟨scanPrune_only s, scanPrune_bufOk h, scanPrune_blen_le s, fun hacc => ?_,
    fun hacc hlong => ?_, scanPrune_of_fits⟩
  · rw [cutIndex_of_acc hacc] at hblen hvalid
    exact ⟨hblen, hvalid, fun i => by rw [hread, cutIndex_of_acc hacc]⟩
  · rw [cutIndex_of_not_acc hacc] at hblen hvalid
    exact ⟨by omega, hvalid, fun i => by rw [hread, cutIndex_of_not_acc hacc]⟩

end Sys2Proof.Machine
end

section
/-! The whole command `SCAN` (spec/42_frame_scanner.md R150, R154, R165, R166, R169): that it completes,
what it leaves unchanged, and which bytes it keeps. -/

namespace Sys2Proof.Machine

open Sys2Proof.Safety

/-- Settles O30: the loop ends at the end of the buffer, and the prune writes the buffer alone. -/
theorem scanCompletes : Obligations.ScanCompletes := by
  intro s h
  obtain ⟨m, hm, hpass, hpos, -, hend⟩ := execScan_decodes h
  have hlast : m.lastEnd ≤ s.blen := by
    split at hend
    · obtain ⟨-, hzero, -⟩ := hend; omega
    · obtain ⟨-, hlast, -, hle⟩ := hend; omega
  refine ⟨scanPrune m, hm, ?_, ?_, ?_, scanPrune_bufOk (hpass.bufOk h)⟩ <;> rw [scanPrune_only]
  · exact hpos
  · exact hlast
  · exact hpass.st

theorem exec_scan_bufOk {s t : State} (h : s.BufOk) (ht : exec .scan s = .next t) : t.BufOk := by
  obtain ⟨t', ht', -, -, -, hok⟩ := scanCompletes s h
  rwa [next_inj (ht.symm.trans ht')]

/-- `SCAN` is a pass, which raises `acc` exactly when it publishes, and its prune. -/
theorem exec_scan_acc {s t : State} (h : s.BufOk) (ht : exec .scan s = .next t) :
    ∃ m, t = scanPrune m ∧ PassOnly s m ∧ (m.acc = true ↔ m.out ≠ s.out) := by
  obtain ⟨m, hm, hpass, -, hout, hend⟩ := exec_scan_next h ht
  refine ⟨m, hm, hpass, ?_⟩
  cases hd : (decodeFrom s.cfg s.blen 0 s.validPart).2 with
  | none =>
    rw [hd] at hend
    obtain ⟨hacc, -, hsame⟩ := hend
    simp [hacc, hsame]
  | some e =>
    rw [hd] at hend
    obtain ⟨hacc, -⟩ := hend
    have hframes := decodeFrom_ne_nil s.cfg s.blen 0 s.validPart (by simp [hd])
    simp [hacc, hout, hframes]

/-- Settles O31: the pass writes scan registers and events, and the prune cuts at `cutIndex`. -/
theorem scanFrame : Obligations.ScanFrame := by
  intro s t h ht
  obtain ⟨m, rfl, hpass, hacc⟩ := exec_scan_acc h ht
  have hcut : cutIndex m =
      if (scanPrune m).acc then (scanPrune m).lastEnd else s.blen - s.cfg.maxFrame := by
    rw [scanPrune_only, ← hpass.blen, ← hpass.cfg]; rfl
  refine ⟨?_, exec_out ht, ?_, ?_, fun i => ?_⟩
  · obtain ⟨_, _, _, _, _, _, _, _, _, heq⟩ := exec_writesOnly ht
    rw [heq]
  · rw [scanPrune_out, ← hacc, scanPrune_only]
  · rw [scanPrune_blen, hpass.blen, hcut]
  · rw [bufRead_scanPrune, hcut, bufRead_congr hpass.buf hpass.blen]

/-- The bytes `SCAN` keeps, as a list. -/
theorem validPart_of_exec_scan {s t : State} (h : s.BufOk) (ht : exec .scan s = .next t) :
    t.validPart = s.validPart.drop (if t.acc then t.lastEnd else s.blen - s.cfg.maxFrame) := by
  obtain ⟨-, -, -, -, hread⟩ := scanFrame s t h ht
  refine validPart_ext (exec_scan_bufOk h ht) fun i => ?_
  rw [hread, List.getElem?_drop, h.validPart_getElem?, Nat.add_comm]

/-- Settles O36: with nothing published `acc` is 0, so the cut brings the length down to the window; a
buffer within the window is not pruned at all. -/
theorem fruitlessScanTruncatesOnly : Obligations.FruitlessScanTruncatesOnly := by
  intro s t h ht hout
  obtain ⟨-, -, hacc, hblen, -⟩ := scanFrame s t h ht
  have hfalse : t.acc = false := by
    rw [← Bool.not_eq_true, hacc]; exact not_not_intro hout
  have hvalid := validPart_of_exec_scan h ht
  rw [hfalse, if_neg Bool.false_ne_true] at hblen hvalid
  refine ⟨by omega, hvalid, fun hfit => ?_⟩
  obtain ⟨m, rfl, hpass, -⟩ := exec_scan_acc h ht
  have hm : m.acc = false := by rw [← hfalse, scanPrune_only]
  rw [← hpass.blen, ← hpass.cfg] at hfit
  rw [scanPrune_of_fits hm hfit] at hout ⊢
  rw [hpass, hout]; rfl

/-- Settles O39: the cut is at or before the incomplete frame, by the premise after an accept, and else
because the frame is shorter than the window. -/
theorem incompleteFrameSurvivesThePass : Obligations.IncompleteFrameSurvivesThePass := by
  intro s t g x b h hv hshort hmax ht hend
  obtain ⟨-, -, hacc, -, -⟩ := scanFrame s t h ht
  have hlen : s.blen = g.length + (b :: x).length := by
    rw [← h.length_validPart, hv, List.length_append]
  have hcut : (if t.acc then t.lastEnd else s.blen - s.cfg.maxFrame) ≤ g.length := by
    split
    · next ha => exact hend (hacc.1 ha)
    · omega
  rw [validPart_of_exec_scan h ht, hv, List.drop_append_of_le_length hcut]
  exact ⟨_, rfl⟩

end Sys2Proof.Machine
end

section
/-! Known frames in the buffer (spec/42_frame_scanner.md R167, R168, R172): what the decoder makes of one
frame between bytes that start none, and how many frames fit into the bytes. -/

namespace Sys2Proof.Safety

open Sys2Proof.Machine

/-! ### One frame -/

/-- A CRC is its high byte followed by its low byte. -/
theorem crc_bytes_append (v : CrcWord) : v.extractLsb' 8 8 ++ v.extractLsb' 0 8 = v := by
  have hjoin : v.extractLsb' 8 8 ++ v.extractLsb' 0 8 = v.extractLsb' 0 16 :=
    BitVec.extractLsb'_append_extractLsb'_eq_extractLsb' rfl
  rw [hjoin, BitVec.extractLsb'_eq_self]

/-- Bytes of which the first gives the number, of a legal number and with residue zero, are a frame,
whatever follows. -/
theorem frameAtHead_of_valid {c : Config} {b : Byte} {bs : List Byte}
    (hlen : (b :: bs).length = b.toNat + 4) (hmin : c.minFrame ≤ b.toNat + 4)
    (hmax : b.toNat + 4 ≤ c.maxFrame) (hres : crc16 xmodem (b :: bs) = 0) (rest : List Byte) :
    frameAtHead c (b :: bs ++ rest) = some (b :: bs).length := by
  have htake : (b :: bs ++ rest).take (b.toNat + 4) = b :: bs := List.take_left' hlen
  have hfit : b.toNat + 4 ≤ (b :: bs ++ rest).length := by
    rw [← hlen, List.length_append]; exact Nat.le_add_right _ _
  rw [hlen]
  exact if_pos ⟨hmin, hmax, hfit, (congrArg (crc16 xmodem) htake).trans hres⟩

/-- The length byte, the bytes it announces and their CRC, high byte first, have residue zero. -/
theorem crc16_append_crc (m : List Byte) :
    crc16 xmodem (m ++ [(crc16 xmodem m).extractLsb' 8 8, (crc16 xmodem m).extractLsb' 0 8]) = 0 := by
  rw [residueLaw, ← bytes_toNat, crc_bytes_append]

/-- A frame at the head, and none behind it but possibly at the byte skipped as its ACK. -/
theorem decodeFrom_of_only_frame {c : Config} {f g : List Byte} (n i : Nat)
    (hf : frameAtHead c (f ++ g) = some f.length)
    (hg : ∀ k, ackLength f g ≤ k → k < g.length → frameAtHead c (g.drop k) = none) :
    decodeFrom c (n + 1) i (f ++ g) = ([f], some (i + f.length)) := by
  have hafter : ∀ j, decodeFrom c n j (g.drop (ackLength f g)) = ([], none) := fun j =>
    decodeFrom_none c n j _ fun k hk => by
      rw [List.length_drop] at hk
      rw [List.drop_drop]
      exact hg _ (Nat.le_add_right _ _) (by omega)
  obtain ⟨b, rest, hcons, -⟩ := frameAtHead_some hf
  rw [hcons] at hf ⊢
  rw [decodeFrom_of_frame hf, ← hcons]
  simp only [List.take_left, List.drop_left, hafter, Option.getD_none]

/-- A pass over `g1 ++ f ++ g2` in which the frame `f` is the only one tried: nothing starts in `g1`, and
nothing in `g2` behind the byte that may be skipped as the ACK of `f`. -/
theorem decodeBytes_of_only_frame {c : Config} {g1 f g2 : List Byte}
    (h1 : ∀ k, k < g1.length → frameAtHead c ((g1 ++ f ++ g2).drop k) = none)
    (hf : frameAtHead c (f ++ g2) = some f.length)
    (h2 : ∀ k, ackLength f g2 ≤ k → k < g2.length → frameAtHead c (g2.drop k) = none) :
    decodeBytes c (g1 ++ f ++ g2) = ([f], g2) := by
  obtain ⟨_, _, -, hlen, -⟩ := frameAtHead_some hf
  obtain ⟨n, hn⟩ : ∃ n, (g1 ++ f ++ g2).length = g1.length + (n + 1) :=
    ⟨f.length + g2.length - 1, by simp only [List.length_append]; omega⟩
  have hskip := decodeFrom_skip c (g1 ++ f ++ g2) g1.length (n + 1) 0
    (fun k _ hk => h1 k (by omega)) (by omega)
  have hpass : decodeFrom c (g1 ++ f ++ g2).length 0 (g1 ++ f ++ g2) =
      ([f], some (g1.length + f.length)) := by
    rw [hn, ← decodeFrom_of_only_frame n g1.length hf h2]
    simpa only [List.drop_zero, Nat.zero_add, List.append_assoc, List.drop_left] using hskip
  refine Prod.ext ?_ ?_
  · rw [decodeBytes_frames, hpass]
  · rw [decodeBytes_kept, hpass]
    exact List.drop_left' List.length_append

/-- `SCAN` where the decoder's answer is known. -/
theorem exec_scan_of_decodeBytes {s : State} {fs : List (List Byte)} {kept : List Byte} (h : s.BufOk)
    (hd : decodeBytes s.cfg s.validPart = (fs, kept)) :
    ∃ t, exec .scan s = .next t ∧ t.BufOk ∧ t.cfg = s.cfg ∧
      t.out = s.out ++ fs.map (eventOf s.cfg) ∧ t.validPart = kept := by
  obtain ⟨t, ht, hout, hvalid⟩ := scanComputesTheDecoder s h
  obtain ⟨hcfg, -⟩ := (exec_writesOnly ht).frame
  rw [hd] at hout hvalid
  exact ⟨t, ht, exec_scan_bufOk h ht, hcfg, hout, hvalid⟩

/-- Settles O35: the frame built with its CRC is the only one the pass meets. -/
theorem roundTripWithGarbage : Obligations.RoundTripWithGarbage := by
  intro s g1 p g2 l f h hp hmin hmax hf hv h1 h2
  have hlen : f.length = l.toNat + 4 := by rw [hf]; simp [hp]
  have hres : crc16 xmodem f = 0 := by rw [hf]; exact crc16_append_crc (l :: p)
  have hframe : frameAtHead s.cfg (f ++ g2) = some f.length := by
    rw [hf] at hlen hres ⊢
    exact frameAtHead_of_valid hlen hmin hmax hres g2
  have hd := decodeBytes_of_only_frame h1 hframe (fun k _ hk => h2 k hk)
  rw [← hv] at hd
  obtain ⟨t, ht, -, -, hout, hvalid⟩ := exec_scan_of_decodeBytes h hd
  exact ⟨t, ht, hout, hvalid⟩

/-- Settles O38: the first pass meets `f` alone, for the ACK skip takes `g`'s length byte; the second
starts at that byte and meets `g`. -/
theorem lengthByteTakenAsAckIsPublishedOnePassLate :
    Obligations.LengthByteTakenAsAckIsPublishedOnePassLate := by
  intro s f g h hv hf hg hack hnone
  have hfirst : decodeBytes s.cfg s.validPart = ([f], g) := by
    rw [hv]
    exact decodeBytes_of_only_frame (g1 := []) (by simp) hf (fun k hk => hnone k (hack ▸ hk))
  obtain ⟨t, ht, hok, hcfg, hout, hvalid⟩ := exec_scan_of_decodeBytes h hfirst
  have hsecond : decodeBytes t.cfg t.validPart = ([g], []) := by
    have hg' : frameAtHead s.cfg (g ++ []) = some g.length := by rwa [List.append_nil]
    have hd := decodeBytes_of_only_frame (g1 := []) (by simp) hg' (by simp)
    rw [hcfg, hvalid]
    rwa [List.append_nil] at hd
  obtain ⟨u, hu, -, -, hout', hvalid'⟩ := exec_scan_of_decodeBytes hok hsecond
  refine ⟨t, u, ht, hout, hvalid, hu, ?_, hvalid'⟩
  rw [hout', hout, hcfg, List.append_assoc]; rfl

/-! ### Many frames -/

/-- The frames of a pass stand side by side in its bytes, none shorter than MIN_FRAME_LENGTH or the
overhead. -/
theorem decodeFrom_frames_fit (c : Config) (n i : Nat) (bs : List Byte) :
    (decodeFrom c n i bs).1.length * max c.minFrame 4 ≤ bs.length := by
  induction n generalizing i bs with
  | zero => simp [decodeFrom]
  | succ n ih =>
    cases bs with
    | nil => simp [decodeFrom_nil]
    | cons b bs =>
      cases hf : frameAtHead c (b :: bs) with
      | none =>
        rw [decodeFrom_of_no_frame hf]
        exact (ih _ _).trans (Nat.le_succ _)
      | some k =>
        obtain ⟨_, _, -, hfour, hmin, -, hfit, -⟩ := frameAtHead_some hf
        have hrest := ih (i + k + ackLength ((b :: bs).take k) ((b :: bs).drop k))
          (((b :: bs).drop k).drop (ackLength ((b :: bs).take k) ((b :: bs).drop k)))
        simp only [List.length_drop] at hrest
        rw [decodeFrom_of_frame hf, List.length_cons, Nat.succ_mul]
        omega

/-- Settles O40: the events of the pass are those of the decoder's frames, which fit into the bytes. -/
theorem framesOfAPassFitTheBuffer : Obligations.FramesOfAPassFitTheBuffer := by
  intro s t h ht
  obtain ⟨t', ht', hout, -⟩ := scanComputesTheDecoder s h
  obtain rfl := next_inj (ht.symm.trans ht')
  have hcount : t.out.length - s.out.length = (decodeBytes s.cfg s.validPart).1.length := by
    simp [hout]
  rw [hcount, decodeBytes_frames, ← h.length_validPart]
  exact decodeFrom_frames_fit s.cfg s.validPart.length 0 s.validPart

end Sys2Proof.Safety
end

section
/-! The hex encoder (spec/43_hex_publish.md R190 to R192) and the character stream of the publish port
(R197). -/

namespace Sys2Proof.Machine

/-! ### Digits and nibbles -/

/-- The codes of the digits are those of `0`..`9` and `A`..`F` (R191). -/
theorem hexDigit_code (v : BitVec 4) :
    (48 ≤ (hexDigit v).toNat ∧ (hexDigit v).toNat ≤ 57) ∨
      (65 ≤ (hexDigit v).toNat ∧ (hexDigit v).toNat ≤ 70) := by
  rw [hexDigit_toNat]
  split <;> omega

theorem hexDigit_injective : Function.Injective hexDigit := by
  intro v w h
  have hcode := congrArg BitVec.toNat h
  rw [hexDigit_toNat, hexDigit_toNat] at hcode
  apply BitVec.eq_of_toNat_eq
  split at hcode <;> split at hcode <;> omega

/-- A byte is given by its two nibbles. -/
theorem eq_of_nibbles_eq {a b : Byte} (hhi : hiNibble a = hiNibble b)
    (hlo : loNibble a = loNibble b) : a = b := by
  have h1 := congrArg BitVec.toNat hhi
  have h2 := congrArg BitVec.toNat hlo
  rw [hiNibble_toNat, hiNibble_toNat] at h1
  rw [loNibble_toNat, loNibble_toNat] at h2
  apply BitVec.eq_of_toNat_eq
  omega

/-! ### The hex string -/

@[simp] theorem hex_nil : hex [] = [] := rfl

@[simp] theorem hex_cons (b : Byte) (bs : List Byte) :
    hex (b :: bs) = hexDigit (hiNibble b) :: hexDigit (loNibble b) :: hex bs := rfl

@[simp] theorem length_hex (bs : List Byte) : (hex bs).length = 2 * bs.length := by
  induction bs with
  | nil => rfl
  | cons b bs ih => simp only [hex_cons, List.length_cons, ih]; omega

theorem hex_append (a b : List Byte) : hex (a ++ b) = hex a ++ hex b := by
  induction a with
  | nil => rfl
  | cons x a ih => simp only [List.cons_append, hex_cons, ih]

theorem hex_injective : Function.Injective hex := by
  intro a
  induction a with
  | nil =>
    intro b h
    cases b with
    | nil => rfl
    | cons y b => cases h
  | cons x a ih =>
    intro b h
    cases b with
    | nil => cases h
    | cons y b =>
      simp only [hex_cons, List.cons.injEq] at h
      obtain ⟨hhi, hlo, htail⟩ := h
      rw [eq_of_nibbles_eq (hexDigit_injective hhi) (hexDigit_injective hlo), ih htail]

/-- Every character of a hex string is a digit. -/
theorem exists_digit_of_mem_hex {c : Byte} {bs : List Byte} (h : c ∈ hex bs) :
    ∃ v, c = hexDigit v := by
  induction bs with
  | nil => cases h
  | cons b bs ih =>
    simp only [hex_cons, List.mem_cons] at h
    obtain rfl | rfl | htail := h
    · exact ⟨_, rfl⟩
    · exact ⟨_, rfl⟩
    · exact ih htail

/-- Byte `k` stands at `2 * k` and `2 * k + 1`, the digit of its high nibble first. -/
theorem hex_getElem? {bs : List Byte} {k : Nat} {b : Byte} (h : bs[k]? = some b) :
    (hex bs)[2 * k]? = some (hexDigit (hiNibble b)) ∧
      (hex bs)[2 * k + 1]? = some (hexDigit (loNibble b)) := by
  induction bs generalizing k with
  | nil => cases h
  | cons x bs ih =>
    cases k with
    | zero =>
      obtain rfl : x = b := Option.some.inj h
      exact ⟨rfl, rfl⟩
    | succ k => exact ih h

/-- Settles O41: two digits a byte, from which nibbles and byte can be read back. -/
theorem hexLaws : Obligations.HexLaws := by
  refine ⟨length_hex, hex_append, fun _ _ h => hex_injective h, fun bs c hc => ?_,
    fun bs k b h => ?_⟩
  · obtain ⟨v, rfl⟩ := exists_digit_of_mem_hex hc
    exact hexDigit_code v
  · obtain ⟨hhi, hlo⟩ := hex_getElem? h
    rw [hhi, hlo, Option.map_some, Option.map_some, hexDigit_toNat, hexDigit_toNat, hiNibble_toNat,
      loNibble_toNat]
    exact ⟨rfl, rfl⟩

/-! ### The publish port -/

/-- After the first character no cycle is marked `sof`, and only the last one `eof`. -/
theorem cyclesAfterFirst_getElem? (cs : Chars) (k : Nat) :
    (cyclesAfterFirst cs)[k]? = cs[k]?.map (fun c => ⟨c, false, decide (k + 1 = cs.length)⟩) := by
  induction cs generalizing k with
  | nil => rfl
  | cons c cs ih =>
    cases cs with
    | nil => cases k <;> rfl
    | cons d cs =>
      cases k with
      | zero => simp [cyclesAfterFirst]
      | succ k => simpa [cyclesAfterFirst] using ih k

/-- The first cycle is the one marked `sof`; what follows it is `cyclesAfterFirst`. -/
theorem pubCycles_cons (c : Byte) (cs : Chars) :
    pubCycles (c :: cs) = ⟨c, true, decide (cs = [])⟩ :: cyclesAfterFirst cs := by
  cases cs <;> rfl

theorem pubCycles_getElem? (cs : Chars) (k : Nat) :
    (pubCycles cs)[k]? =
      cs[k]?.map (fun c => ⟨c, decide (k = 0), decide (k + 1 = cs.length)⟩) := by
  cases cs with
  | nil => rfl
  | cons c cs =>
    rw [pubCycles_cons]
    cases k with
    | zero => simp [List.length_eq_zero_iff]
    | succ k => simp [cyclesAfterFirst_getElem?]

theorem pubStream_publish (ev : PubEvent) (s : State) :
    (publish ev s).pubStream = s.pubStream ++ pubCycles ev.payload := by
  simp only [State.pubStream, publish_out, List.flatMap_append, List.flatMap_singleton]

/-- Settles O42: the stream of a string cycle by cycle, and the port's stream event by event. -/
theorem publishPortFramesEachEvent : Obligations.PublishPortFramesEachEvent :=
  ⟨pubCycles_getElem?, fun s ev => pubStream_publish ev s⟩

end Sys2Proof.Machine
end

section
/-! `SCAN` as a run of the protocol state machine, and what a step does outside the commands
(spec/44_step_fsm.md R212, R220 to R226). -/

namespace Sys2Proof.Machine

/-! ### The state machine refines SCAN -/

/-- Chains agree when their second halves agree on what the first half answers. -/
theorem andThen_congr_of_next {o : Result} {f g : State → Result}
    (h : ∀ t, o = .next t → f t = g t) : andThen o f = andThen o g := by
  cases o with
  | next t => exact h t rfl
  | fault r => rfl
  | refused r => rfl

theorem setSt_of_st_eq {x : FsmState} {s : State} (h : s.st = x) : setSt x s = s := by
  subst h; rfl

/-- The prune neither reads nor writes `st`. -/
theorem scanPrune_setSt (x : FsmState) (s : State) :
    scanPrune (setSt x s) = setSt x (scanPrune s) := by
  rw [scanPrune, scanPrune, apply_ite (setSt x), apply_ite (setSt x)]; rfl

/-- The loop of R150 is at most four transitions per iteration, from HUNT to HUNT. -/
theorem fsmRun_scanLoop (n : Nat) (s : State) :
    ∃ k ≤ 4 * n, fsmRun k (setSt .hunt s)
      = andThen (scanLoop n s) (fun t => .next (setSt .hunt t)) := by
  induction n generalizing s with
  | zero => exact ⟨0, le_rfl, rfl⟩
  | succ n ih =>
    by_cases hp : s.pos < s.blen
    · obtain ⟨k, hk, hrun⟩ := fsmRun_iteration s hp
      rw [scanLoop, if_pos hp]
      cases hit : scanIteration s with
      | next m =>
        obtain ⟨k', hk', hrun'⟩ := ih m
        refine ⟨k + k', by omega, ?_⟩
        rw [fsmRun_add, hrun, hit, andThen_next, andThen_next, andThen_next, hrun']
      | fault r => exact ⟨k, by omega, by rw [hrun, hit]; rfl⟩
      | refused r => exact ⟨k, by omega, by rw [hrun, hit]; rfl⟩
    · exact ⟨0, Nat.zero_le _, by rw [scanLoop, if_neg hp]; rfl⟩

/-- HUNT at the end of the buffer, PRUNE, IDLE: the last two transitions of a pass (R221). -/
theorem fsmRun_prune {s : State} (hp : s.blen ≤ s.pos) :
    fsmRun 2 (setSt .hunt s) = .next (setSt .idle (scanPrune s)) := by
  have hhunt : fsmStep (setSt .hunt s) = .next (setSt .prune s) := if_neg (Nat.not_lt.2 hp)
  have hprune : fsmStep (setSt .prune s) = .next (setSt .idle (scanPrune (setSt .prune s))) := rfl
  rw [fsmRun_succ (by simp), hhunt, andThen_next, fsmRun_succ (by simp), hprune, scanPrune_setSt]
  rfl

/-- Settles O33: at most four transitions for each of the `blen` iterations, then two for the prune. -/
theorem stateMachineRefinesScan : Obligations.StateMachineRefinesScan := by
  intro s hidle
  obtain ⟨k, hk, hrun⟩ := fsmRun_scanLoop s.blen (startPass s)
  refine ⟨k + 2, by omega, ?_⟩
  calc fsmRun (k + 2) (beginScan s)
      = andThen (fsmRun k (setSt .hunt (startPass s))) (fsmRun 2) := fsmRun_add k 2 _
    _ = andThen (scanLoop s.blen (startPass s)) (fun t => fsmRun 2 (setSt .hunt t)) := by
        rw [hrun, andThen_assoc]; rfl
    _ = andThen (scanLoop s.blen (startPass s)) (fun t => .next (scanPrune t)) := by
        refine andThen_congr_of_next fun t ht => ?_
        have hst : t.st = .idle := (scanLoop_passOnly ht).st.trans hidle
        have hend : t.blen ≤ t.pos := scanLoop_ends (s := startPass s) (Nat.sub_le _ _) ht
        rw [fsmRun_prune hend, ← scanPrune_setSt, setSt_of_st_eq hst]
    _ = exec .scan s := rfl

/-! ### A step in IDLE with nothing presented, and a step during a pass -/

/-- Settles O5: of the ways a step can go, only the wait is open. -/
theorem idleWithoutCommandWaits : Obligations.IdleWithoutCommandWaits := by
  intro s hidle hnone
  obtain ⟨p, rest, hp, -⟩ | ⟨w, now, rest, -, hp, -⟩ | ⟨hbusy, -⟩ | ⟨-, -, h⟩ := step_cases s
  · simp [hnone] at hp
  · simp [hnone] at hp
  · exact absurd hidle hbusy
  · exact h

theorem step_of_busy {s : State} (hbusy : s.st ≠ .idle)
    (hreset : ∀ p rest, s.pending ≠ .reset p :: rest) : step s = fsmStep (endPulse s) := by
  obtain ⟨p, rest, hp, -⟩ | ⟨w, now, rest, hidle, -⟩ | ⟨-, h⟩ | ⟨hidle, -⟩ := step_cases s
  · exact absurd hp (hreset p rest)
  · exact absurd hidle hbusy
  · exact h
  · exact absurd hidle hbusy

/-- Settles O6: the step is a transition, which writes none of the four. -/
theorem busyMachineTakesNoCommand : Obligations.BusyMachineTakesNoCommand := by
  intro s hbusy hreset
  have hstep := step_of_busy hbusy hreset
  refine ⟨hstep, fun t ht => ?_⟩
  have hframe := fsmStep_only (hstep.symm.trans ht)
  rw [hframe]
  exact ⟨rfl, rfl, rfl, rfl⟩

/-! ### NOP and the reserved opcodes -/

/-- Settles O11: each of the three arms of `exec` answers its state. -/
theorem nopAndReservedChangeNothing : Obligations.NopAndReservedChangeNothing :=
  fun _ => ⟨rfl, rfl, fun _ => rfl⟩

/-! ### The codes of the state register -/

theorem FsmState.ofCode_code (x : FsmState) : FsmState.ofCode x.code = x := by
  cases x <;> rfl

/-- Settles O48: the code table read both ways, and the two codes outside it. -/
theorem stateRegisterCodes : Obligations.StateRegisterCodes :=
  ⟨FsmState.ofCode_code, ⟨rfl, rfl, rfl, rfl, rfl, rfl⟩, rfl, rfl⟩

end Sys2Proof.Machine
end

section
/-! A step always answers (spec/60_exceptions.md R240, spec/20_memory.md R51): every read of a pass falls on
a cell below `blen`, and a gapless buffer holds a value there. -/

namespace Sys2Proof.Machine

open Sys2Proof.Safety

/-! ### Commands -/

/-- Every command answers on a gapless buffer; `SCAN` alone reads it. -/
theorem exec_answers (i : Instr) {s : State} (h : s.BufOk) : ∃ t, exec i s = .next t := by
  cases i with
  | nop | crcRestart | crcAdd | crcCalc | rxOpen | rxByte | reserved7 | reserved8F => exact ⟨_, rfl⟩
  | scan =>
    obtain ⟨t, ht, -⟩ := scanCompletes s h
    exact ⟨t, ht⟩

/-! ### Transitions of a pass -/

theorem fsmStep_of_idle {s : State} (hst : s.st = .idle) : fsmStep s = .next s := by
  simp only [fsmStep, hst]

theorem fsmStep_of_hunt_at_end {s : State} (hst : s.st = .hunt) (hp : s.blen ≤ s.pos) :
    fsmStep s = .next { s with st := .prune } := by
  simp only [fsmStep, hst, Nat.not_lt.2 hp, if_false]

theorem fsmStep_of_prune {s : State} (hst : s.st = .prune) :
    fsmStep s = .next { scanPrune s with st := .idle } := by
  simp only [fsmStep, hst]

theorem scanHdr_answers {s : State} (h : s.BufOk) (hp : s.pos < s.blen) :
    ∃ t, scanHdr s = .next t := by
  obtain ⟨b, hb⟩ := h.bufRead_some hp
  exact ⟨_, scanHdr_of_read hb⟩

theorem scanAck_answers {s : State} (h : s.BufOk) : ∃ t, scanAck s = .next t := by
  by_cases hp : s.pos < s.blen
  · obtain ⟨a, ha⟩ := h.bufRead_some hp
    exact ⟨_, scanAck_of_read ha⟩
  · exact ⟨s, scanAck_at_end (Nat.not_lt.1 hp)⟩

/-- Every transition answers on a gapless buffer: in CHECK and EMIT a candidate is held, whose bytes all
stand below `blen`; HUNT and ACK test the cursor before they read. -/
theorem fsmStep_answers {s : State} (h : s.BufOk) (hpass : PassInv s) : ∃ t, fsmStep s = .next t := by
  cases hst : s.st with
  | idle => exact ⟨s, fsmStep_of_idle hst⟩
  | hunt =>
    by_cases hp : s.pos < s.blen
    · obtain ⟨a, ha⟩ := scanHdr_answers h hp
      exact ⟨_, fsmStep_of_hunt hst hp ha⟩
    · exact ⟨_, fsmStep_of_hunt_at_end hst (Nat.not_lt.1 hp)⟩
  | check =>
    obtain ⟨-, hheld⟩ := (passInv_iff_of_check hst).1 hpass
    obtain ⟨-, hfit⟩ := candidateHeld_bounds hheld
    exact ⟨_, fsmStep_of_check hst (scanCheck_of_bufOk h hfit)⟩
  | emit =>
    obtain ⟨-, hheld, -⟩ := (passInv_iff_of_emit hst).1 hpass
    obtain ⟨hlen, hfit⟩ := candidateHeld_bounds hheld
    obtain ⟨b, -, hemit, -⟩ := scanEmitPublishesAndAdvances s h hfit hlen
    exact ⟨_, fsmStep_of_emit hst hemit⟩
  | ack =>
    obtain ⟨t, ht⟩ := scanAck_answers h
    exact ⟨_, fsmStep_of_ack hst ht⟩
  | prune => exact ⟨_, fsmStep_of_prune hst⟩

/-! ### Every step -/

/-- Settles O44, by the cases of a step: a reset and the wait answer, a command runs on a gapless buffer,
and a transition runs within the invariant of the pass. -/
theorem stepNeverStops : Obligations.StepNeverStops := by
  intro s hs
  obtain ⟨p, rest, -, heq⟩ | ⟨w, now, rest, -, -, heq⟩ | ⟨-, heq⟩ | ⟨-, -, heq⟩ := step_cases s
  · exact ⟨_, heq⟩
  · obtain ⟨-, hbuf, -⟩ := hs
    rw [heq]; exact exec_answers _ (s := acceptCommand now rest s) hbuf
  · obtain ⟨-, hbuf, -, -, hpass⟩ := inv_endPulse hs
    rw [heq]; exact fsmStep_answers hbuf hpass
  · exact ⟨_, heq⟩

end Sys2Proof.Machine
end

section
/-! The silent conditions (spec/60_exceptions.md R241, R245): each condition's cause in arithmetic, and the
handling by the operation that meets it. -/

namespace Sys2Proof.Machine

open Sys2Proof.Safety

/-! ### X1a, X1b, X1c: SCAN.HDR -/

theorem x1a_mem_hdrConditions (s : State) : .x1a ∈ hdrConditions s ↔ s.len < s.cfg.minFrame := by
  simp [hdrConditions, tooShort]

theorem x1b_mem_hdrConditions (s : State) : .x1b ∈ hdrConditions s ↔ s.cfg.maxFrame < s.len := by
  simp [hdrConditions, tooLong]

theorem x1c_mem_hdrConditions (s : State) : .x1c ∈ hdrConditions s ↔ s.blen - s.pos < s.len := by
  simp [hdrConditions, runsPast]

theorem lengthOK_iff_hdrConditions_nil (s : State) : lengthOK s = true ↔ hdrConditions s = [] := by
  simp [lengthOK, hdrConditions, and_assoc]

/-- The causes at the byte read: `SCAN.HDR` leaves the byte plus FRAME_OVERHEAD in `len`. -/
theorem hdrConditions_of_scanHdr {s t : State} {b : Byte} (hb : bufRead s s.pos = some b)
    (ht : scanHdr s = .next t) :
    (.x1a ∈ hdrConditions t ↔ b.toNat + 4 < s.cfg.minFrame) ∧
    (.x1b ∈ hdrConditions t ↔ s.cfg.maxFrame < b.toNat + 4) ∧
    (.x1c ∈ hdrConditions t ↔ s.blen - s.pos < b.toNat + 4) := by
  rw [scanHdr_of_read hb] at ht
  rw [← next_inj ht]
  exact ⟨x1a_mem_hdrConditions _, x1b_mem_hdrConditions _, x1c_mem_hdrConditions _⟩

/-- With X1a, X1b or X1c met, HUNT moves the cursor on and stays (R153). -/
theorem fsmStep_of_hdrConditions {s t : State} (hst : s.st = .hunt) (hp : s.pos < s.blen)
    (ht : scanHdr s = .next t) (hc : hdrConditions t ≠ []) :
    fsmStep s = .next { t with pos := s.pos + 1 } := by
  rw [fsmStep_of_hunt hst hp ht, if_neg (fun hok => hc ((lengthOK_iff_hdrConditions_nil t).1 hok))]
  obtain ⟨b, -, rfl⟩ := scanHdr_next ht
  rfl

/-! ### X2: SCAN.CHECK -/

theorem crcOK_iff_checkConditions_nil (s : State) : crcOK s = true ↔ checkConditions s = [] := by
  simp [checkConditions]

theorem x2_mem_checkConditions (s : State) : .x2 ∈ checkConditions s ↔ ¬ crcOK s = true := by
  simp [checkConditions]

/-- The cause of X2 over the bytes of the candidate. -/
theorem checkConditions_of_scanCheck {s t : State} (h : s.BufOk) (hfit : s.pos + s.len ≤ s.blen)
    (ht : scanCheck s = .next t) :
    .x2 ∈ checkConditions t ↔ crc16 xmodem ((s.validPart.drop s.pos).take s.len) ≠ 0 := by
  rw [scanCheck_of_bufOk h hfit] at ht
  rw [x2_mem_checkConditions, ← next_inj ht]
  exact not_congr (crcOK_of_crcFeed rfl)

/-- With X2 met, CHECK moves the cursor on and returns to HUNT (R156). -/
theorem fsmStep_of_checkConditions {s t : State} (hst : s.st = .check) (ht : scanCheck s = .next t)
    (hc : checkConditions t ≠ []) : fsmStep s = .next { t with pos := s.pos + 1, st := .hunt } := by
  rw [fsmStep_of_check hst ht, if_neg (fun hok => hc ((crcOK_iff_checkConditions_nil t).1 hok))]
  obtain ⟨bs, -, rfl⟩ := scanCheck_next ht
  rfl

/-! ### X3: RX.BYTE -/

theorem x3_mem_rxByteConditions (s : State) :
    .x3 ∈ rxByteConditions s ↔ s.cfg.bufferSize ≤ s.blen := by
  simp [rxByteConditions, hasRoom]

theorem rxByteConditions_ne_nil (s : State) :
    rxByteConditions s ≠ [] ↔ s.cfg.bufferSize ≤ s.blen := by
  simp [rxByteConditions, hasRoom]

/-! ### X4: RX.OPEN -/

theorem x4_mem_rxOpenConditions (s : State) : .x4 ∈ rxOpenConditions s ↔ timedOut s = true := by
  simp [rxOpenConditions]

theorem rxOpenConditions_ne_nil (s : State) : rxOpenConditions s ≠ [] ↔ timedOut s = true := by
  simp [rxOpenConditions]

/-! ### X5: SCAN.PRUNE -/

theorem x5_mem_pruneConditions (s : State) :
    .x5 ∈ pruneConditions s ↔ s.acc = false ∧ s.cfg.maxFrame < s.blen := by
  simp [pruneConditions]

theorem pruneConditions_ne_nil (s : State) :
    pruneConditions s ≠ [] ↔ s.acc = false ∧ s.cfg.maxFrame < s.blen := by
  simp [pruneConditions]

/-- With X5 met, the prune brings the buffer down to its newest MAX_FRAME_LENGTH bytes (R165). -/
theorem scanPrune_of_pruneConditions {s : State} (h : s.BufOk) (hc : pruneConditions s ≠ []) :
    (scanPrune s).blen = s.cfg.maxFrame ∧
    (scanPrune s).validPart = s.validPart.drop (s.blen - s.cfg.maxFrame) := by
  obtain ⟨hacc, hlong⟩ := (pruneConditions_ne_nil s).1 hc
  rw [scanPrune_blen, validPart_scanPrune h, cutIndex_of_not_acc hacc]
  exact ⟨Nat.sub_sub_self hlong.le, rfl⟩

/-- Settles O49: for each condition its cause and the handling that follows it, in the order of R241. -/
theorem silentConditionsDriveTheHandling : Obligations.SilentConditionsDriveTheHandling := by
  refine ⟨fun s t b => hdrConditions_of_scanHdr,
    fun s => ⟨x1a_mem_hdrConditions s, x1b_mem_hdrConditions s, x1c_mem_hdrConditions s,
      lengthOK_iff_hdrConditions_nil s⟩,
    fun s t => fsmStep_of_hdrConditions, fun s t => checkConditions_of_scanCheck,
    fun s t => fsmStep_of_checkConditions,
    fun s => ⟨x3_mem_rxByteConditions s, fun hcap => ?atCapacity⟩,
    fun s b hc => exec_rxByte_of_full ((rxByteConditions_ne_nil s).1 hc) b,
    fun s g hg hmod => ?gap, fun s hc => ?clear, x5_mem_pruneConditions,
    fun s => scanPrune_of_pruneConditions⟩
  case atCapacity =>
    rw [x3_mem_rxByteConditions]
    exact ⟨fun hfull => Nat.le_antisymm hcap hfull, fun heq => heq.ge⟩
  case gap =>
    rw [x4_mem_rxOpenConditions, timedOut_eq_decide hg hmod, decide_eq_true_iff]
  case clear =>
    exact ⟨_, exec_rxOpen_of_timedOut ((rxOpenConditions_ne_nil s).1 hc), rfl, validPart_clearBuffer s, rfl⟩

end Sys2Proof.Machine
end

section
/-! A reset is taken whatever the state machine is doing (spec/70_reset_and_hazards.md R270 to R272). -/

namespace Sys2Proof.Machine

/-- The step looks at the head of what the host presents before it looks at `st`. -/
theorem step_of_reset {s : State} {p : CrcParams} {rest : List HostInput}
    (hp : s.pending = .reset p :: rest) : step s = .next (acceptReset p rest s) := by
  simp only [step, hp]

@[simp] theorem validPart_acceptReset (p : CrcParams) (rest : List HostInput) (s : State) :
    (acceptReset p rest s).validPart = [] := rfl

/-- A reset moves the events of `out` behind those delivered before, and so loses none (R272). -/
theorem events_acceptReset (p : CrcParams) (rest : List HostInput) (s : State) :
    (acceptReset p rest s).delivered ++ (acceptReset p rest s).out = s.delivered ++ s.out := by
  rw [acceptReset_out, acceptReset_delivered, List.append_nil]

/-- Settles O9: the step answers `acceptReset`, whose fields are the reset values, whatever `st` was. -/
theorem resetAbandonsThePass : Obligations.ResetAbandonsThePass := by
  intro s p rest hp
  have hstep : step s = .next (acceptReset p rest s) := step_of_reset hp
  exact ⟨_, hstep, acceptReset_st p rest s, acceptReset_blen p rest s, validPart_acceptReset p rest s,
    acceptReset_crc p rest s, acceptReset_last p rest s, acceptReset_out p rest s,
    acceptReset_e p rest s, acceptReset_cfg p rest s, acceptReset_pending p rest s,
    events_acceptReset p rest s⟩

end Sys2Proof.Machine
end
